-- ==== Sys2Proof/Word.lean ====
section
/-! DEFINITION. The widths of the block's values: 8-bit bytes and 32-bit words (00_scope.md R8, R10). -/

namespace Sys2Proof

/-- A byte: an 8-bit value, bit 0 the least significant (R8, R10). -/
abbrev Byte := BitVec 8

/-- A 32-bit value: an accumulator register or a CAN identifier (R5, R6). -/
abbrev Word := BitVec 32

end Sys2Proof
end

