-- ==== Sys2Proof/Config.lean ====
section
/-! DEFINITION. The parameters of the block: those the spec fixes (00_scope.md R5, R6, R7) and those it
leaves open (92_eei_decisions.md, "Named parameters left OPEN"), the latter without a value. -/

namespace Sys2Proof

/-- The accumulator index of a request: `NUM_ACC = 2` (R7, R20), `page` for `crc[0]` and `image` for
`crc[1]` (R21). -/
inductive Acc where
  | page
  | image
  deriving DecidableEq, Repr

/-- The other accumulator, `1 - a` in the notation of R22. -/
def Acc.other : Acc → Acc
  | .page => .image
  | .image => .page

/-- `POLY`, the generator polynomial without its implicit top term (R5, R90). -/
def Config.crcPoly : Word := 0x04C11DB7#32

/-- `INIT`, the initial register value (R5, R90). -/
def Config.crcInit : Word := 0xFFFFFFFF#32

/-- `ENV_LEN`, the length of an envelope in bytes (R6). -/
def Config.envLen : Nat := 36

/-- `MAX_DLC`, the largest number of CAN data bytes (R6). -/
def Config.maxDlc : Nat := 8

/-- The length-marker byte at offset 1 (R6, R67). -/
def Config.lengthMarker : Byte := 0x24#8

/-- The flag byte at offset 3 (R6, R68). -/
def Config.flagByte : Byte := 0x80#8

/-- By how much `MAX_PAYLOAD` exceeds 37: OPEN in the spec (R7, D9), so it has no value here. -/
opaque Config.payloadRoom : Nat

/-- `MAX_PAYLOAD`, the largest byte count one request may carry: any natural that is at least 37
(R7, D9). DESIGN CHOICE (log 8): only well-formedness reads it. -/
def Config.maxPayload : Nat := Config.payloadRoom + 37

/-- The content of `crc[0]` before any hardware reset: unspecified (R30, U1), so a free value. -/
opaque Config.powerUpCrc0 : Word

/-- The content of `crc[1]` before any hardware reset: unspecified (R30, U1), so a free value. -/
opaque Config.powerUpCrc1 : Word

/-- Whether the surrounding software's `waitResponse` ends the run on a datagram whose length is not 36
(`true`) or discards it (`false`): not settled by the spec (90_conflicts.md C6), so a free value. -/
opaque Config.wrongSizeIsFatal : Bool

end Sys2Proof
end

