-- ==== Sys2Proof/Syntax.lean ====
section
/-! DEFINITION. The operations of the block, one constructor per row of opcode_table.json with exactly the
operands the operation uses (30_encoding.md R61, R62), and the request record that carries one (R60). -/

namespace Sys2Proof

/-- The five operations (R61). A request field an operation ignores (R62) is no operand of it. -/
inductive Instr where
  /-- `CRC.INIT a` (R94) -/
  | crcInit (a : Acc)
  /-- `CRC.UPDATE a, bytes` (R95) -/
  | crcUpdate (a : Acc) (bytes : List Byte)
  /-- `CRC.DIGEST a` (R96) -/
  | crcDigest (a : Acc)
  /-- `FC.ENCODE id, data` (R111) -/
  | fcEncode (id : Word) (data : List Byte)
  /-- `FC.DECODE env` (R114) -/
  | fcDecode (env : List Byte)
  deriving DecidableEq, Repr

/-- The request record (R60). The length of the payload is the request's own stated length. -/
structure Request where
  op : BitVec 4
  acc : BitVec 1
  id : Word
  payload : List Byte
  deriving DecidableEq, Repr

end Sys2Proof
end

