-- ==== Sys2Proof/WellFormed.lean ====
section
/-! DEFINITION. What a requester can present: a payload of at most `MAX_PAYLOAD` bytes (30_encoding.md R60).
A payload of an illegal length for its operation (9 data bytes, a 35-byte envelope) IS well formed: the
block accepts the request and answers it with an error (R60). -/

namespace Sys2Proof

/-- The byte sequence fits the payload field: `len(payload)` from 0 to `MAX_PAYLOAD` (R60). -/
def payloadFits (s : List Byte) : Bool := decide (s.length ≤ Config.maxPayload)

/-- A request the interface can carry (R60); every value of the other fields is legal (R62, R74). -/
def Request.wellFormed (r : Request) : Bool := payloadFits r.payload

/-- An operation some request of the interface carries (R41, R60). -/
def Instr.wellFormed : Instr → Bool
  | .crcInit _ => true
  | .crcUpdate _ bytes => payloadFits bytes
  | .crcDigest _ => true
  | .fcEncode _ data => payloadFits data
  | .fcDecode env => payloadFits env

end Sys2Proof
end

