-- ==== Sys2Proof/Decode.lean ====
section
/-! DEFINITION. Request records to operations and back (30_encoding.md R60 to R62, R73, R74).
The spec fixes the fields and widths of a request and no serialisation of it (R60), so the decoder reads
the record; the selector `SEL[4:0]` is the view the opcode table numbers. -/

namespace Sys2Proof

/-- Why a request is no operation. -/
inductive DecodeError where
  /-- `op` is one of the eleven reserved codes (R74). -/
  | reservedOp (op : BitVec 4)
  deriving DecidableEq, Repr

/-- `acc = 0` is `crc[0]`, `acc = 1` is `crc[1]` (R73). -/
def Acc.ofBit (b : BitVec 1) : Acc := if b = 0#1 then .page else .image

/-- The `acc` bit that selects an accumulator (R73). -/
def Acc.toBit : Acc → BitVec 1
  | .page => 0#1
  | .image => 1#1

/-- `SEL[4:0]`, with `SEL[4:1] = op` and `SEL[0] = acc` (R60). -/
def Request.sel (r : Request) : BitVec 5 := r.op ++ r.acc

/-- The request whose selector is `sel` (R60). -/
def Request.ofSel (sel : BitVec 5) (id : Word) (payload : List Byte) : Request :=
  { op := sel.extractLsb' 1 4, acc := sel.extractLsb' 0 1, id := id, payload := payload }

/-- The operation a request carries: the five assigned codes of R61, each with the fields R62 says it
uses; every other code is reserved (R74). -/
def decode (r : Request) : Except DecodeError Instr :=
  match r.op with
  | 0b0001#4 => .ok (.crcInit (Acc.ofBit r.acc))
  | 0b0010#4 => .ok (.crcUpdate (Acc.ofBit r.acc) r.payload)
  | 0b0011#4 => .ok (.crcDigest (Acc.ofBit r.acc))
  | 0b1000#4 => .ok (.fcEncode r.id r.payload)
  | 0b1001#4 => .ok (.fcDecode r.payload)
  | op => .error (.reservedOp op)

/-- The request that carries an operation (R61); the fields the operation ignores are zero and empty, as
R76 shows encodings. -/
def encode : Instr → Request
  | .crcInit a => { op := 0b0001#4, acc := a.toBit, id := 0#32, payload := [] }
  | .crcUpdate a bytes => { op := 0b0010#4, acc := a.toBit, id := 0#32, payload := bytes }
  | .crcDigest a => { op := 0b0011#4, acc := a.toBit, id := 0#32, payload := [] }
  | .fcEncode id data => { op := 0b1000#4, acc := 0#1, id := id, payload := data }
  | .fcDecode env => { op := 0b1001#4, acc := 0#1, id := 0#32, payload := env }

/-- The request an opcode-table word stands for: `SEL[4:0]` is the low five bits of the `nbits`-bit word,
every field above the table's bits is zero and the payload is empty. DESIGN CHOICE (log 18): the bits of
the last whole byte above `SEL[4]` belong to no field of the request and are not looked at. -/
def tableRequest (nbits w : Nat) : Request :=
  Request.ofSel (BitVec.ofNat 5 (w % 2 ^ nbits)) 0#32 []

/-- The operation the decoder reads from an opcode-table word. -/
def decodeTableWord (nbits w : Nat) : Option Instr :=
  match decode (tableRequest nbits w) with
  | .ok i => some i
  | .error _ => none

end Sys2Proof
end

