-- ==== Sys2Proof/Machine/State.lean ====
section
/-! DEFINITION. The state of the block (10_state.md R20 to R31), the response record (30_encoding.md R63),
and the two lists that carry the block's inputs and outputs. -/

namespace Sys2Proof.Machine

/-- The frame `FC.DECODE` returns: `id` 32 bits, `dlc` 8 bits, `payload_len` 4 bits and a sequence of
`payload_len` bytes (R63, R113). -/
structure Frame where
  id : Word
  dlc : Byte
  payloadLen : BitVec 4
  data : List Byte
  deriving DecidableEq, Repr

/-- The three error kinds of the block (R150). -/
inductive ErrorKind where
  /-- `FC.ENCODE` of more than 8 data bytes (R151) -/
  | invalidData
  /-- `FC.DECODE` of a sequence that is not 36 bytes long (R152) -/
  | malformedEnvelope
  /-- a reserved `op` code (R153) -/
  | illegalRequest
  deriving DecidableEq, Repr

/-- The value of a successful response; its shape depends on the operation (R63). -/
inductive Value where
  /-- `CRC.INIT` and `CRC.UPDATE` return nothing -/
  | none
  /-- `CRC.DIGEST` returns 4 bytes -/
  | digest (bytes : List Byte)
  /-- `FC.ENCODE` returns 36 bytes -/
  | env (bytes : List Byte)
  /-- `FC.DECODE` returns a frame -/
  | frame (f : Frame)
  deriving DecidableEq, Repr

/-- A response: `Ok(value)` or one error kind, which carries no value (R13, R63). -/
inductive Response where
  | ok (v : Value)
  | err (k : ErrorKind)
  deriving DecidableEq, Repr

/-- What the outside can do to the block: issue a request (R60), or reset it, which happens only between
requests (R170). -/
inductive Event where
  | request (r : Request)
  | reset
  deriving DecidableEq, Repr

/-- The block's two registers (R20) and, the model's own, the events still to be served, next one first
(log 1), and the responses given so far, oldest first (log 2). -/
structure State where
  /-- `crc[0]`, alias PAGE (R20, R21) -/
  crc0 : Word
  /-- `crc[1]`, alias IMAGE (R20, R21) -/
  crc1 : Word
  /-- the model's own: the inputs to come; the block has no queue (R179) -/
  pending : List Event
  /-- the model's own: the observable result of the run (R183) -/
  responses : List Response
  deriving DecidableEq, Repr

/-- The block right after hardware reset: both registers at `0xFFFFFFFF` (R29, R170); nothing is pending
and nothing has been answered (log 1, log 2). -/
def State.reset : State :=
  { crc0 := Config.crcInit, crc1 := Config.crcInit, pending := [], responses := [] }

/-- The block before its first hardware reset: the registers hold unspecified values (R30). -/
def State.powerUp : State :=
  { crc0 := Config.powerUpCrc0, crc1 := Config.powerUpCrc1, pending := [], responses := [] }

/-- Reasons the machine stops with a fault: none. An error of the block is the response of one request,
after which the next one is served (R156, R158), and no operation can hang (R182), so nobody raises a
fault (log 3). Safe: no behaviour of the block is cut off. -/
inductive Fault where
  deriving DecidableEq, Repr

/-- Reasons the model has no meaning for an instruction. -/
inductive Refusal where
  /-- Raised by an arm of `exec` for an instruction without a meaning; no arm raises it. Safe. -/
  | notModelled (mnemonic : String)
  deriving DecidableEq, Repr

end Sys2Proof.Machine
end

