-- ==== Sys2Proof/Machine/Ops.lean ====
section
/-! DEFINITION. The shared operations: register access, responding, raising an error, hardware reset,
taking the next event, and the byte-sequence operations of 00_scope.md R10, R11. -/

namespace Sys2Proof.Machine

/-- How an operation ends. -/
abbrev Outcome := Host.Outcome State Fault Refusal

/-! ### Byte sequences (R10) and byte order (R11) -/

/-- `zeros(n)` (R10). -/
def zeros (n : Nat) : List Byte := List.replicate n 0#8

/-- `s[i]` (R10); 0x00 outside the sequence, where the spec never reads (log 19). -/
def byteAt (s : List Byte) (i : Nat) : Byte := s.getD i 0#8

/-- `s[a..b]`, the half-open slice (R10). -/
def slice (s : List Byte) (a b : Nat) : List Byte := (s.drop a).take (b - a)

/-- `for i in 0..len(bs): env[off + i] <- bs[i]` (R12, R14). -/
def putBytes (env : List Byte) (off : Nat) : List Byte → List Byte
  | [] => env
  | b :: bs => putBytes (env.set off b) (off + 1) bs

/-- `be32(v)`, most significant byte first (R11). -/
def be32 (v : Word) : List Byte :=
  [v.extractLsb' 24 8, v.extractLsb' 16 8, v.extractLsb' 8 8, v.extractLsb' 0 8]

/-- `from_be32` of four bytes, the first one most significant (R11). -/
def fromBe32 (b0 b1 b2 b3 : Byte) : Word :=
  (b0.setWidth 32 <<< 24) + (b1.setWidth 32 <<< 16) + (b2.setWidth 32 <<< 8) + b3.setWidth 32

/-- `le16(p)`, least significant byte first (R11). -/
def le16 (p : BitVec 16) : List Byte := [p.extractLsb' 0 8, p.extractLsb' 8 8]

/-! ### Registers (R12, R22) -/

/-- `crc[a]` (R12). -/
def State.crc (s : State) : Acc → Word
  | .page => s.crc0
  | .image => s.crc1

/-- `crc[a] <- v`, always the whole register (R12, R22). -/
def State.setCrc (s : State) (a : Acc) (v : Word) : State :=
  match a with
  | .page => { s with crc0 := v }
  | .image => { s with crc1 := v }

/-! ### Responses (R63), errors (R156), reset (R170), events -/

/-- Answer the request being served; every request gets exactly one response (R63). -/
def State.respond (s : State) (r : Response) : State := { s with responses := s.responses ++ [r] }

/-- `return Ok(v)` (R13). -/
def complete (v : Value) (s : State) : State := s.respond (.ok v)

/-- `raise k` (R13): the response carries the kind only, no register is written, nothing is saved, no
handler is entered, and the next request is served normally (R150, R156, R158). -/
def raiseError (k : ErrorKind) (s : State) : State := s.respond (.err k)

/-- Hardware reset writes `0xFFFFFFFF` to both registers and has no other effect (R170). -/
def hardwareReset (s : State) : State := { s with crc0 := Config.crcInit, crc1 := Config.crcInit }

/-- The state with the event being served taken off the inputs to come (log 1). -/
def State.withPending (s : State) (es : List Event) : State := { s with pending := es }

/-- With no request and no reset presented, nothing happens (R157; log 4). -/
def idle (s : State) : State := s

/-- Present `e` as the very next event, ahead of what is pending. -/
def State.present (s : State) (e : Event) : State := s.withPending (e :: s.pending)

end Sys2Proof.Machine
end

