-- ==== Sys2Proof/Machine/Flags.lean ====
section
/-! DEFINITION. The block has no flags and no condition codes (10_state.md R28), so no operation computes
one. What it has is the 2-bit status code of a response (30_encoding.md R64). -/

namespace Sys2Proof.Machine

/-- The status code of an error kind (R64, R150). -/
def ErrorKind.status : ErrorKind → BitVec 2
  | .invalidData => 0b01#2
  | .malformedEnvelope => 0b10#2
  | .illegalRequest => 0b11#2

/-- The `status` field of a response: 00 exactly when it carries a value (R63, R64). -/
def Response.status : Response → BitVec 2
  | .ok _ => 0b00#2
  | .err k => k.status

/-- The value a response carries: none when its status is not 00 (R63). -/
def Response.value : Response → Option Value
  | .ok v => some v
  | .err _ => none

end Sys2Proof.Machine
end

