-- ==== Sys2Proof/Machine/Operands.lean ====
section
/-! DEFINITION. Operand assembly of the codec operations (30_encoding.md R71, R72) and the fixed 8-byte view
of a decoded frame (41_framecodec.md R116). The register operand `acc` is assembled in Decode (R73), and
the update bytes are taken from the payload unchanged (R73). -/

namespace Sys2Proof.Machine

/-- `dlc = len(data)` on encode, as an 8-bit value (R72). -/
def dlcOfData (data : List Byte) : Byte := BitVec.ofNat 8 data.length

/-- `payload_len = min(dlc, 8)` on decode (R72, R113; decision D12, log 11). -/
def payloadLenOfDlc (dlc : Byte) : BitVec 4 := BitVec.ofNat 4 (min dlc.toNat Config.maxDlc)

/-- The id assembled from envelope offsets 24 to 27, big-endian, unmasked (R71; decision D11, log 10). -/
def idOfEnv (env : List Byte) : Word :=
  fromBe32 (byteAt env 24) (byteAt env 25) (byteAt env 26) (byteAt env 27)

/-- The fixed 8-byte view `data8`: the frame's data, then 0x00 (R116; decision D13, log 12). -/
def Frame.data8 (f : Frame) : List Byte :=
  f.data.take f.payloadLen.toNat ++ zeros (Config.maxDlc - f.payloadLen.toNat)

end Sys2Proof.Machine
end

