-- ==== Sys2Proof/Machine/Codec.lean ====
section
/-! DEFINITION. The codec unit (41_framecodec.md): `encode_env`, `decode_env` and the operations `FC.ENCODE`,
`FC.DECODE`. The unit has no state (10_state.md R24). -/

namespace Sys2Proof.Machine

/-- `encode_env(id, data)`, for at most 8 data bytes (R110). -/
def encodeEnv (id : Word) (data : List Byte) : List Byte :=
  let env := zeros Config.envLen
  let env := env.set 1 Config.lengthMarker
  let env := env.set 3 Config.flagByte
  let env := env.set 21 (dlcOfData data)
  let env := putBytes env 24 (be32 id)
  putBytes env 28 data

/-- `decode_env(env)`, for 36 bytes (R113). -/
def decodeEnv (env : List Byte) : Frame :=
  let dlc := byteAt env 21
  let payloadLen := payloadLenOfDlc dlc
  { id := idOfEnv env, dlc := dlc, payloadLen := payloadLen,
    data := slice env 28 (28 + payloadLen.toNat) }

/-- `FC.ENCODE id, data` (R111): the length check comes before anything is built. -/
def execFcEncode (id : Word) (data : List Byte) (s : State) : Outcome :=
  if data.length > Config.maxDlc then .next (raiseError .invalidData s)
  else .next (complete (.env (encodeEnv id data)) s)

/-- `FC.DECODE env` (R114): the length is all that is checked. -/
def execFcDecode (env : List Byte) (s : State) : Outcome :=
  if env.length ≠ Config.envLen then .next (raiseError .malformedEnvelope s)
  else .next (complete (.frame (decodeEnv env)) s)

end Sys2Proof.Machine
end

