-- ==== Sys2Proof/Machine/Crc.lean ====
section
/-! DEFINITION. The CRC unit (40_crc.md): the bit, byte and update functions, their two other forms, and the
operations `CRC.INIT`, `CRC.UPDATE`, `CRC.DIGEST`. -/

namespace Sys2Proof.Machine

/-- `crc_step_bit(r, b)`: the feedback bit is `r[31] XOR b`; shift left; XOR the polynomial in when the
feedback bit is 1 (R91; from general knowledge G1, decision D10, log 9). -/
def crcStepBit (r : Word) (b : Bool) : Word :=
  if r.getLsbD 31 ^^ b then (r <<< 1) ^^^ Config.crcPoly else r <<< 1

/-- `crc_step_byte(r, B)`: bit 7 of the byte first, bit 0 last (R92, R46). -/
def crcStepByte (r : Word) (B : Byte) : Word :=
  [7, 6, 5, 4, 3, 2, 1, 0].foldl (fun r i => crcStepBit r (B.getLsbD i)) r

/-- `crc_update(r, s)`: the bytes in the order given (R93, R47). -/
def crcUpdate (r : Word) (s : List Byte) : Word := s.foldl crcStepByte r

/-- One shift of the second form of R92, which sees no input bit. -/
def crcShift (r : Word) : Word :=
  if r.getLsbD 31 then (r <<< 1) ^^^ Config.crcPoly else r <<< 1

/-- The second form of the byte step: fold the byte into bits 31:24, then eight shifts (R92). -/
def crcStepByteFolded (r : Word) (B : Byte) : Word :=
  Nat.iterate crcShift 8 (r ^^^ (B.setWidth 32 <<< 24))

/-- The table entry `T[i]` (R98). -/
def crcTable (i : Byte) : Word := crcStepByte (i.setWidth 32 <<< 24) 0#8

/-- The byte step by table: `(r << 8) XOR T[r[31:24] XOR B]` (R98). -/
def crcStepByteTable (r : Word) (B : Byte) : Word :=
  (r <<< 8) ^^^ crcTable (r.extractLsb' 24 8 ^^^ B)

/-- `CRC.INIT a` (R94). -/
def execCrcInit (a : Acc) (s : State) : Outcome :=
  .next (complete .none (s.setCrc a Config.crcInit))

/-- `CRC.UPDATE a, bytes` (R95). -/
def execCrcUpdate (a : Acc) (bytes : List Byte) (s : State) : Outcome :=
  .next (complete .none (s.setCrc a (crcUpdate (s.crc a) bytes)))

/-- `CRC.DIGEST a` (R96): the register as it stands, big-endian, not changed. -/
def execCrcDigest (a : Acc) (s : State) : Outcome :=
  .next (complete (.digest (be32 (s.crc a))) s)

end Sys2Proof.Machine
end

