-- ==== Sys2Proof/Machine/Dispatch.lean ====
section
/-! DEFINITION. One arm per constructor of Instr, each one direct call of its meaning. -/

namespace Sys2Proof.Machine

def exec (i : Instr) (s : State) : Host.Outcome State Fault Refusal :=
  match i with
  | .crcInit a => Sys2Proof.Machine.execCrcInit a s
  | .crcUpdate a bytes => Sys2Proof.Machine.execCrcUpdate a bytes s
  | .crcDigest a => Sys2Proof.Machine.execCrcDigest a s
  | .fcEncode id data => Sys2Proof.Machine.execFcEncode id data s
  | .fcDecode env => Sys2Proof.Machine.execFcDecode env s

end Sys2Proof.Machine
end

