-- ==== Sys2Proof/Machine/Step.lean ====
section
/-! DEFINITION. One step serves one event, whole (20_memory.md R49, R52). A request is examined op first
(60_exceptions.md R155): a reserved op raises `IllegalRequest`, an assigned one runs its operation. -/

namespace Sys2Proof.Machine

/-- Serve the next event: nothing, a hardware reset, or a request. -/
def step (s : State) : Host.Outcome State Fault Refusal :=
  match s.pending with
  | [] => .next (idle s)
  | .reset :: rest => .next (hardwareReset (s.withPending rest))
  | .request r :: rest =>
    match decode r with
    | .ok i => exec i (s.withPending rest)
    | .error _ => .next (raiseError .illegalRequest (s.withPending rest))

/-- The opcode-table word presented as the very next request, ahead of what is pending (log 18). -/
def State.withFetchWord (s : State) (nbits w : Nat) : State :=
  s.present (.request (tableRequest nbits w))

end Sys2Proof.Machine
end

