-- ==== Sys2Proof/Machine/Surrounding.lean ====
section
/-! DEFINITION. The data formats of the surrounding software (45_surrounding_protocol.md): pure functions beside
the block, no operation of it and no state of it (00_scope.md R4; log 20). -/

namespace Sys2Proof.Machine

/-- `PAGE_SIZE` (R130). -/
def pageSize : Nat := 1024

/-- The size of a Word (R130). -/
def wordSize : Nat := 4

/-- Words per page (R130). -/
def wordsPerPage : Nat := 256

/-- The CAN id of every Command frame (R130). -/
def commandId : Word := 0xB0#32

/-- The CAN id of every Response frame (R130). -/
def responseId : Word := 0xB1#32

/-- The three commands (R130, R131). -/
inductive Cmd where
  | wbuf
  | wpage
  | wcrc
  deriving DecidableEq, Repr

/-- The command codes (R130). -/
def Cmd.code : Cmd → Byte
  | .wbuf => 1#8
  | .wpage => 2#8
  | .wcrc => 3#8

/-- `cmd_data`: the 8 CAN data bytes of a command; `par1` little-endian, the four bytes of `par2` reversed
(R132). -/
def cmdData (boardId cmd : Byte) (par1 : BitVec 16) (par2 : List Byte) : List Byte :=
  [boardId, cmd] ++ le16 par1 ++ par2.reverse

/-- `is_response`: the frame answers the command `cmd` for `boardId` (R133). -/
def isResponse (f : Frame) (boardId cmd : Byte) : Bool :=
  f.id == responseId && decide (f.dlc.toNat ≥ 3) && byteAt f.data 0 == boardId && byteAt f.data 1 == cmd

/-- `result_of` a response frame (R133). -/
def resultOf (f : Frame) : Byte := byteAt f.data 2

/-- `to_crc_order`: the first reversal, of a Word into the order the CRC unit is fed (R136). -/
def toCrcOrder (word : List Byte) : List Byte := word.reverse

/-- The Image of a file: zero-padded at the end to a multiple of the page size (R134). -/
def padImage (file : List Byte) : List Byte :=
  file ++ zeros ((pageSize - file.length % pageSize) % pageSize)

/-- The number of pages `P` of an Image (R134). -/
def pageCount (image : List Byte) : Nat := image.length / pageSize

/-- Word `w` of page `p` (R134). -/
def imageWord (image : List Byte) (p w : Nat) : List Byte :=
  slice image (p * pageSize + wordSize * w) (p * pageSize + wordSize * w + wordSize)

/-- The Words of page `p`, in image order (R134). -/
def pageWords (image : List Byte) (p : Nat) : List (List Byte) :=
  (List.range wordsPerPage).map (imageWord image p)

end Sys2Proof.Machine
end

