-- ==== Sys2Proof/Machine/Programmer.lean ====
section
/-! DEFINITION. The surrounding software's use of the block (45_surrounding_protocol.md R138 to R143): the
Programmer as a function over the block's step. It is software outside the block (00_scope.md R4) and no
state of it; it stands here so that the requester obligations R172 to R176 can be read and stated (log 20). -/

namespace Sys2Proof.Machine

/-- Why the Programmer stops a run (R140, R141). How a timeout is reported, by itself or inside a
Write…Failed kind, is not settled (90_conflicts.md C3): it is kept apart, with its command. -/
inductive Abort where
  | writeBufferFailed (page word : Nat) (code : Byte)
  | writePageFailed (page : Nat) (code : Byte)
  | writeCrcFailed (code : Byte)
  /-- the block refused the command's CAN data as longer than 8 bytes: the local precondition of `FC.ENCODE`
  (R141); the Programmer's own commands have 8 bytes and never meet it -/
  | invalidData (cmd : Cmd)
  /-- no matching response before the deadline (R139) -/
  | timeout (cmd : Cmd)
  /-- a datagram that is not 36 bytes long, where that is fatal (90_conflicts.md C6) -/
  | malformedEnvelope (cmd : Cmd)
  /-- the block answered a request with something the software has no use for -/
  | unusable
  deriving DecidableEq, Repr

/-- What the Programmer reports as it goes (R140, R144). -/
inductive Notice where
  | pageDone (page : Nat)
  | runDone
  deriving DecidableEq, Repr

/-- How a run ends (R140); an image of no pages is not settled (U15) and is not run. -/
inductive RunEnd where
  | done
  | aborted (why : Abort)
  | emptyImage
  deriving DecidableEq, Repr

/-- A run in progress: the block; the envelopes sent, oldest first; for each command still to be sent, the
datagrams that arrive before its deadline, in order (what a command leaves unread is dropped: DESIGN CHOICE,
log 22); and the notices given. -/
structure Session where
  block : State
  sent : List (List Byte)
  arrivals : List (List (List Byte))
  notices : List Notice
  deriving DecidableEq, Repr

/-- Issue one request to the block and read its response (R179). -/
def issue (r : Request) (b : State) : Option Response × State :=
  match step (b.present (.request r)) with
  | .next b' => (b'.responses.getLast?, b')
  | .fault _ => (none, b)
  | .refused _ => (none, b)

/-- `sendCommand`: one `FC.ENCODE 0xB0, cmd_data(...)`, one datagram sent (R138); the block's `InvalidData` is
fatal under its own kind and nothing is sent (R141). -/
def sendCommand (boardId : Byte) (cmd : Cmd) (par1 : Nat) (par2 : List Byte) (σ : Session) :
    Option Abort × Session :=
  match issue (encode (.fcEncode commandId (cmdData boardId cmd.code (BitVec.ofNat 16 par1) par2))) σ.block with
  | (some (.ok (.env e)), b) => (none, { σ with block := b, sent := σ.sent ++ [e] })
  | (some (.err .invalidData), b) => (some (.invalidData cmd), { σ with block := b })
  | (_, b) => (some .unusable, { σ with block := b })

/-- `waitResponse`: decode each datagram that arrives before the deadline, discard the ones that do not
match, return the result byte of the first that does (R139, R142). -/
def waitResponse (boardId : Byte) (cmd : Cmd) : List (List Byte) → State → Except Abort Byte × State
  | [], b => (.error (.timeout cmd), b)
  | d :: ds, b =>
    match issue (encode (.fcDecode d)) b with
    | (some (.ok (.frame f)), b') =>
      if isResponse f boardId cmd.code then (.ok (resultOf f), b') else waitResponse boardId cmd ds b'
    | (_, b') =>
      if Config.wrongSizeIsFatal then (.error (.malformedEnvelope cmd), b')
      else waitResponse boardId cmd ds b'

/-- One command and its response; `failed` names the abort for a nonzero result (R140, R141). DESIGN CHOICE
(log 22): the datagrams that arrive after the matching response and before this command's deadline are dropped
with the rest of this command's list; the spec does not say whether the next `waitResponse` reads them. -/
def command (boardId : Byte) (cmd : Cmd) (par1 : Nat) (par2 : List Byte) (failed : Byte → Abort)
    (σ : Session) : Option Abort × Session :=
  match sendCommand boardId cmd par1 par2 σ with
  | (some why, σ') => (some why, σ')
  | (none, σ') =>
    match waitResponse boardId cmd (σ'.arrivals.headD []) σ'.block with
    | (.error why, b) => (some why, { σ' with block := b, arrivals := σ'.arrivals.tail })
    | (.ok code, b) =>
      (if code = 0#8 then none else some (failed code), { σ' with block := b, arrivals := σ'.arrivals.tail })

/-- Step 1b for one Word: reverse it, feed it to both accumulators, send `WBUF` (R140, R143). -/
def writeWord (boardId : Byte) (p w : Nat) (word : List Byte) (σ : Session) : Option Abort × Session :=
  let r := toCrcOrder word
  let b := (issue (encode (.crcUpdate .page r)) σ.block).2
  let b := (issue (encode (.crcUpdate .image r)) b).2
  command boardId .wbuf w r (.writeBufferFailed p w) { σ with block := b }

/-- Step 1b for the Words from index `w` on, stopping at the first abort (R140). -/
def writeWords (boardId : Byte) (p w : Nat) : List (List Byte) → Session → Option Abort × Session
  | [], σ => (none, σ)
  | word :: words, σ =>
    match writeWord boardId p w word σ with
    | (some why, σ') => (some why, σ')
    | (none, σ') => writeWords boardId p (w + 1) words σ'

/-- Read an accumulator's digest and send it as `par2` of a command (R140, R176). -/
def commandDigest (a : Acc) (boardId : Byte) (cmd : Cmd) (par1 : Nat) (failed : Byte → Abort) (σ : Session) :
    Option Abort × Session :=
  match issue (encode (.crcDigest a)) σ.block with
  | (some (.ok (.digest d)), b) => command boardId cmd par1 d failed { σ with block := b }
  | (_, b) => (some .unusable, { σ with block := b })

/-- Step 1 for one page: reset the page accumulator, write the Words, commit with `WPAGE` (R140). -/
def writePage (boardId : Byte) (image : List Byte) (p : Nat) (σ : Session) : Option Abort × Session :=
  let b := (issue (encode (.crcInit .page)) σ.block).2
  match writeWords boardId p 0 (pageWords image p) { σ with block := b } with
  | (some why, σ') => (some why, σ')
  | (none, σ') =>
    match commandDigest .page boardId .wpage p (.writePageFailed p) σ' with
    | (some why, σ'') => (some why, σ'')
    | (none, σ'') => (none, { σ'' with notices := σ''.notices ++ [.pageDone p] })

/-- Step 1 for the pages listed, stopping at the first abort (R140). -/
def writePages (boardId : Byte) (image : List Byte) : List Nat → Session → Option Abort × Session
  | [], σ => (none, σ)
  | p :: ps, σ =>
    match writePage boardId image p σ with
    | (some why, σ') => (some why, σ')
    | (none, σ') => writePages boardId image ps σ'

/-- A whole run over a padded Image: the pages in ascending order, then `WCRC` once (R140, R143). The image
accumulator is taken as it stands; R173 asks the requester to have it at `0xFFFFFFFF`. -/
def runProgrammer (boardId : Byte) (image : List Byte) (σ : Session) : RunEnd × Session :=
  if pageCount image = 0 then (.emptyImage, σ)
  else
    match writePages boardId image (List.range (pageCount image)) σ with
    | (some why, σ') => (.aborted why, σ')
    | (none, σ') =>
      match commandDigest .image boardId .wcrc (pageCount image) .writeCrcFailed σ' with
      | (some why, σ'') => (.aborted why, σ'')
      | (none, σ'') => (.done, { σ'' with notices := σ''.notices ++ [.runDone] })

end Sys2Proof.Machine
end

