-- ==== Sys2Proof/Safety.lean ====
section
/-! DEFINITION. The terms claims use: the shape of responses, canonical envelopes, the bytes a run feeds to an
accumulator, serving every pending event, and what a run of the Programmer is meant to send. -/

namespace Sys2Proof.Machine

/-- The envelope offsets that carry no field (30_encoding.md R66). -/
def unnamedOffsets : List Nat := [0, 2] ++ List.range' 4 17 ++ [22, 23]

/-- The envelope offsets `FC.DECODE` does not read whatever the dlc (R42, R66, R67, R68). -/
def ignoredOffsets : List Nat := [1, 3] ++ unnamedOffsets

/-- A canonical envelope (41_framecodec.md R112). -/
def Canonical (env : List Byte) : Prop :=
  env.length = 36 ∧ byteAt env 1 = 0x24#8 ∧ byteAt env 3 = 0x80#8 ∧ (byteAt env 21).toNat ≤ 8 ∧
  (∀ i ∈ unnamedOffsets, byteAt env i = 0#8) ∧
  (∀ i, 28 + (byteAt env 21).toNat ≤ i → i ≤ 35 → byteAt env i = 0#8)

/-- The shape R63 gives a response's value: a digest of 4 bytes, a canonical envelope, a frame whose
`payload_len` is `min(dlc, 8)` and counts its data bytes. An error carries no value. -/
def Response.WellShaped : Response → Prop
  | .ok .none => True
  | .ok (.digest d) => d.length = 4
  | .ok (.env e) => Canonical e
  | .ok (.frame f) => f.payloadLen.toNat = min f.dlc.toNat 8 ∧ f.data.length = f.payloadLen.toNat
  | .err _ => True

/-- The invariant: every response given so far has the shape R63 gives it. -/
def State.Shaped (s : State) : Prop := ∀ r ∈ s.responses, r.WellShaped

/-- Serve every pending event. -/
def serveAll (s : State) : Outcome := Host.Core.run core s.pending.length s

/-- The requests among the events. -/
def requestsOf : List Event → List Request
  | [] => []
  | .reset :: es => requestsOf es
  | .request r :: es => r :: requestsOf es

/-- The bytes an event feeds to accumulator `a`. -/
def Event.fed (a : Acc) : Event → List Byte
  | .reset => []
  | .request r =>
    match decode r with
    | .ok (.crcUpdate a' bytes) => if a' = a then bytes else []
    | _ => []

/-- The event initialises accumulator `a`: hardware reset, or `CRC.INIT a`. -/
def Event.inits (a : Acc) : Event → Bool
  | .reset => true
  | .request r =>
    match decode r with
    | .ok (.crcInit a') => decide (a' = a)
    | _ => false

/-- The register `a` after the events, by R22: initialised by reset and `CRC.INIT a`, fed by
`CRC.UPDATE a`, left alone by everything else. -/
def crcAfter (a : Acc) (v : Word) : List Event → Word
  | [] => v
  | e :: es => crcAfter a (if e.inits a then Config.crcInit else crcUpdate v (e.fed a)) es

/-- The bytes of page `p` in the order both accumulators are fed them (R136, R143). -/
def pageStream (image : List Byte) (p : Nat) : List Byte := ((pageWords image p).map toCrcOrder).flatten

/-- The bytes of the whole Image in that order (S7). -/
def imageStream (image : List Byte) : List Byte :=
  ((List.range (pageCount image)).map (pageStream image)).flatten

/-- The envelope of a command (R132). -/
def commandEnvelope (boardId : Byte) (cmd : Cmd) (par1 : Nat) (par2 : List Byte) : List Byte :=
  encodeEnv commandId (cmdData boardId cmd.code (BitVec.ofNat 16 par1) par2)

/-- The envelopes of page `p`: 256 times `WBUF`, then `WPAGE` with the CRC of the page's reversed words
from the initial register (R140, S6). -/
def pageEnvelopes (boardId : Byte) (image : List Byte) (p : Nat) : List (List Byte) :=
  (List.range wordsPerPage).map (fun w =>
    commandEnvelope boardId .wbuf w (toCrcOrder (imageWord image p w)))
  ++ [commandEnvelope boardId .wpage p (be32 (crcUpdate Config.crcInit (pageStream image p)))]

/-- The envelopes of a whole run: every page's, then one `WCRC` with the CRC of the whole reversed-word
stream from the initial register (R140, S7). -/
def runEnvelopes (boardId : Byte) (image : List Byte) : List (List Byte) :=
  ((List.range (pageCount image)).map (pageEnvelopes boardId image)).flatten
  ++ [commandEnvelope boardId .wcrc (pageCount image) (be32 (crcUpdate Config.crcInit (imageStream image)))]

/-- The command of the `k`-th envelope of a run over `pages` pages: per page 256 `WBUF` and a `WPAGE`, then one
`WCRC` (R140). -/
def commandAt (pages k : Nat) : Cmd :=
  if k = 257 * pages then .wcrc else if k % 257 = 256 then .wpage else .wbuf

/-- Among the datagrams that arrive before a command's deadline, the first that answers it has result 0, and no
datagram before that one ends the run (R139, R140; 90_conflicts.md C6). -/
def Accepted (boardId : Byte) (cmd : Cmd) : List (List Byte) → Prop
  | [] => False
  | d :: ds =>
    if d.length = 36 then
      if isResponse (decodeEnv d) boardId cmd.code then resultOf (decodeEnv d) = 0#8
      else Accepted boardId cmd ds
    else Config.wrongSizeIsFatal = false ∧ Accepted boardId cmd ds

/-- The `k`-th command of the run was accepted. -/
def Session.Accepts (σ : Session) (boardId : Byte) (pages k : Nat) : Prop :=
  Accepted boardId (commandAt pages k) (σ.arrivals.getD k [])

end Sys2Proof.Machine
end

