-- ==== Sys2Proof/Certificates/Slice0/Obligations.lean ====
section
/-! DEFINITION. The statements for the provers. Each docstring names the rule of spec/ it formalises, or says
which choice of the spec or of the model it rests on (log numbers are notes/assumptions/<n>.md). -/

namespace Sys2Proof.Claims

/-- The polynomial over GF(2) whose coefficient of x^i, for i below `n`, is bit `i` (40_crc.md R97). -/
noncomputable def bitPoly (n : Nat) (bit : Nat → Bool) : Polynomial (ZMod 2) :=
  ∑ i ∈ Finset.range n, if bit i then Polynomial.X ^ i else 0

/-- A register value as a polynomial: bit 31 is the coefficient of x^31 (R90, R97). -/
noncomputable def wordPoly (r : Word) : Polynomial (ZMod 2) := bitPoly 32 r.getLsbD

/-- A byte sequence as a polynomial: bit 7 of its first byte is the highest coefficient (R97). -/
noncomputable def bytesPoly (s : List Byte) : Polynomial (ZMod 2) :=
  s.foldl (fun p b => p * Polynomial.X ^ 8 + bitPoly 8 b.getLsbD) 0

/-- The generator polynomial P(x), term by term (R90). -/
noncomputable def generator : Polynomial (ZMod 2) :=
  ([32, 26, 23, 22, 16, 12, 11, 10, 8, 7, 5, 4, 2, 1, 0].map (fun k => Polynomial.X ^ k)).sum

/-- The eleven reserved operation codes (30_encoding.md R74). -/
def reservedOps : List (BitVec 4) :=
  [0b0000#4, 0b0100#4, 0b0101#4, 0b0110#4, 0b0111#4, 0b1010#4, 0b1011#4, 0b1100#4, 0b1101#4, 0b1110#4,
    0b1111#4]

/-- Two requests agree on every field their operation uses (30_encoding.md R62). -/
def AgreeOnUsedFields (r r' : Request) : Prop :=
  r.op = r'.op ∧
  (r.op ∈ [0b0001#4, 0b0010#4, 0b0011#4] → r.acc = r'.acc) ∧
  (r.op = 0b1000#4 → r.id = r'.id) ∧
  (r.op ∈ [0b0010#4, 0b1000#4, 0b1001#4] → r.payload = r'.payload)

end Sys2Proof.Claims

open Sys2Proof Sys2Proof.Machine Sys2Proof.Claims

/-! ### Reset and events -/

/-- After hardware reset both registers hold `0xFFFFFFFF` (10_state.md R29). Rests on the spec's decision D8,
that hardware reset stands for creation (log 6). -/
def Obligations.ResetLeavesBothRegistersInitial : Prop :=
  ∀ a, State.reset.crc a = 0xFFFFFFFF#32

/-- A hardware reset served from any state, one before the first reset too, writes `0xFFFFFFFF` to both
registers and does nothing else (70_reset_and_hazards.md R170). Rests on decision D8 (log 5, log 6). -/
def Obligations.HardwareResetWritesBothRegisters : Prop :=
  ∀ s rest, s.pending = .reset :: rest →
    ∃ t, step s = .next t ∧ (∀ a, t.crc a = 0xFFFFFFFF#32) ∧ t.pending = rest ∧ t.responses = s.responses

/-- From any registers, `CRC.INIT 0` and `CRC.INIT 1`, as the words `SEL 00010` and `SEL 00011` with any
ignored fields, leave the registers as reset does (70_reset_and_hazards.md R171, derived there). -/
def Obligations.InitialisingBothStandsForReset : Prop :=
  ∀ s rest id p id' p',
    s.pending = .request (Request.ofSel 0b00010#5 id p) :: .request (Request.ofSel 0b00011#5 id' p') :: rest →
    ∃ t, Host.Core.run core 2 s = .next t ∧ (∀ a, t.crc a = State.reset.crc a) ∧ t.pending = rest ∧
      t.responses = s.responses ++ [.ok .none, .ok .none]

/-- A step serves the next event: with none it changes nothing (log 4); a request that decodes runs its
operation at the state with that request taken off; one that does not decode raises `IllegalRequest`. -/
def Obligations.StepRunsTheDecodedRequest : Prop :=
  (∀ s, s.pending = [] → step s = .next s) ∧
  (∀ s r rest i, s.pending = .request r :: rest → decode r = .ok i → step s = exec i (s.withPending rest)) ∧
  (∀ s r rest e, s.pending = .request r :: rest → decode r = .error e →
    step s = .next ((s.withPending rest).respond (.err .illegalRequest)))

/-! ### Encodings -/

/-- Selector words written out from 30_encoding.md R60, R61 decode to the operations they stand for. The
codes are the spec's decision D5 (log 13). -/
def Obligations.SelectorWordsDecode : Prop :=
  decode (Request.ofSel 0b00010#5 0#32 []) = .ok (.crcInit .page) ∧
  decode (Request.ofSel 0b00011#5 0#32 []) = .ok (.crcInit .image) ∧
  decode (Request.ofSel 0b00101#5 0#32 [0x04#8, 0x03#8]) = .ok (.crcUpdate .image [0x04#8, 0x03#8]) ∧
  decode (Request.ofSel 0b00110#5 0#32 []) = .ok (.crcDigest .page) ∧
  decode (Request.ofSel 0b10000#5 0xB0#32 [0x07#8]) = .ok (.fcEncode 0xB0#32 [0x07#8]) ∧
  decode (Request.ofSel 0b10010#5 0#32 [0x99#8]) = .ok (.fcDecode [0x99#8])

/-- Decoding an encoded operation gives it back, every operand at every value, and the request is one the
interface can carry exactly when the operation is. The codes are decision D5 (log 13). -/
def Obligations.DecodeUndoesEncode : Prop :=
  ∀ i, decode (encode i) = .ok i ∧ (encode i).wellFormed = i.wellFormed

/-- A request that decodes differs from the encoding of its operation in ignored fields only
(30_encoding.md R62). Rests on decisions D5, D14 (log 13, log 14). -/
def Obligations.EncodeOfDecodedKeepsUsedFields : Prop :=
  ∀ r i, decode r = .ok i → AgreeOnUsedFields r (encode i)

/-- The decoder is the opcode table: under the mask `0x1E` the selector equals a row's `match` exactly when
the request decodes to that row's operation. Decision D5 (log 13). -/
def Obligations.DecoderIsTheOpcodeTable : Prop :=
  ∀ r : Request,
    (r.sel &&& 0x1E#5 = 0x02#5 ↔ ∃ a, decode r = .ok (.crcInit a)) ∧
    (r.sel &&& 0x1E#5 = 0x04#5 ↔ ∃ a, decode r = .ok (.crcUpdate a r.payload)) ∧
    (r.sel &&& 0x1E#5 = 0x06#5 ↔ ∃ a, decode r = .ok (.crcDigest a)) ∧
    (r.sel &&& 0x1E#5 = 0x10#5 ↔ decode r = .ok (.fcEncode r.id r.payload)) ∧
    (r.sel &&& 0x1E#5 = 0x12#5 ↔ decode r = .ok (.fcDecode r.payload))

/-- A step does not see the fields its request's operation ignores (30_encoding.md R62, R74). Rests on
decisions D5, D14 (log 13, log 14). -/
def Obligations.IgnoredFieldsChangeNothing : Prop :=
  ∀ (s : State) rest r r', AgreeOnUsedFields r r' →
    step (s.withPending (.request r :: rest)) = step (s.withPending (.request r' :: rest))

/-- Requests of the lengths the two length errors need are requests the interface carries: every payload of at
most 37 bytes, 9 data bytes and 35- and 37-byte envelopes among them (30_encoding.md R60). The bound is the open
parameter of decision D9 (log 8). -/
def Obligations.WrongLengthsCanBePresented : Prop :=
  ∀ r : Request, r.payload.length ≤ 37 → r.wellFormed = true

/-- The status codes (30_encoding.md R63, R64): 00 exactly when the response carries a value, 01, 10 and 11 for
the three error kinds. Decision D6 (log 13). -/
def Obligations.StatusCodesOfResponses : Prop :=
  (∀ r : Response, r.status = 0b00#2 ↔ r.value.isSome = true) ∧
  (∀ r : Response, r.status = 0b01#2 ↔ r = .err .invalidData) ∧
  (∀ r : Response, r.status = 0b10#2 ↔ r = .err .malformedEnvelope) ∧
  (∀ r : Response, r.status = 0b11#2 ↔ r = .err .illegalRequest)

/-! ### The CRC unit -/

/-- `CRC.INIT a` writes `0xFFFFFFFF` to `crc[a]`, answers Ok with no value, and leaves everything else
alone (40_crc.md R94). The value is decision D21 (log 6). -/
def Obligations.CrcInitWritesInitialValue : Prop :=
  ∀ a s, ∃ t, exec (.crcInit a) s = .next t ∧ t.crc a = 0xFFFFFFFF#32 ∧ t.crc a.other = s.crc a.other ∧
    t.pending = s.pending ∧ t.responses = s.responses ++ [.ok .none]

/-- `CRC.UPDATE a, bytes` writes `crc_update(crc[a], bytes)`, answers Ok with no value, and leaves everything
else alone (40_crc.md R95). The function rests on the loop of decision D10 (log 9). -/
def Obligations.CrcUpdateConsumesBytes : Prop :=
  ∀ a bytes s, ∃ t, exec (.crcUpdate a bytes) s = .next t ∧ t.crc a = crcUpdate (s.crc a) bytes ∧
    t.crc a.other = s.crc a.other ∧ t.pending = s.pending ∧ t.responses = s.responses ++ [.ok .none]

/-- `CRC.DIGEST a` returns the register's four bytes, most significant first, and changes nothing else
(20_memory.md R44; no register is written, so every register stays). -/
def Obligations.CrcDigestIsBigEndian : Prop :=
  ∀ a s, ∃ d0 d1 d2 d3 t, exec (.crcDigest a) s = .next t ∧
    t.responses = s.responses ++ [.ok (.digest [d0, d1, d2, d3])] ∧
    [d0, d1, d2, d3] = be32 (s.crc a) ∧
    d0.toNat = (s.crc a).toNat / 2 ^ 24 ∧ d1.toNat = (s.crc a).toNat / 2 ^ 16 % 2 ^ 8 ∧
    d2.toNat = (s.crc a).toNat / 2 ^ 8 % 2 ^ 8 ∧ d3.toNat = (s.crc a).toNat % 2 ^ 8 ∧
    (∀ b, t.crc b = s.crc b) ∧ t.pending = s.pending

/-- Side effects and idempotency of the five operations (20_memory.md R50): a digest, an encode and a
decode write no register and answer the same when issued again; `CRC.INIT` twice leaves what once leaves;
`CRC.UPDATE` twice consumes the bytes twice, which leaves what once leaves only where once changed nothing, and
every non-empty payload of at most 37 bytes changes some register a second time. R50 says this last of every
non-empty payload; it is said here of the lengths every block carries (37 is the least `MAX_PAYLOAD`, decision
D9, log 8), so the statement is derived. The update function rests on decision D10 (log 9). -/
def Obligations.SideEffectsAndIdempotency : Prop :=
  (∀ a s, exec (.crcDigest a) s = .next (s.respond (.ok (.digest (be32 (s.crc a))))) ∧
    exec (.crcDigest a) (s.respond (.ok (.digest (be32 (s.crc a))))) =
      .next ((s.respond (.ok (.digest (be32 (s.crc a))))).respond (.ok (.digest (be32 (s.crc a)))))) ∧
  (∀ id data s, ∃ r, exec (.fcEncode id data) s = .next (s.respond r) ∧
    exec (.fcEncode id data) (s.respond r) = .next ((s.respond r).respond r)) ∧
  (∀ env s, ∃ r, exec (.fcDecode env) s = .next (s.respond r) ∧
    exec (.fcDecode env) (s.respond r) = .next ((s.respond r).respond r)) ∧
  (∀ a s, ∃ t u, exec (.crcInit a) s = .next t ∧ exec (.crcInit a) t = .next u ∧ ∀ b, u.crc b = t.crc b) ∧
  (∀ a bytes s, ∃ t u v, exec (.crcUpdate a bytes) s = .next t ∧ exec (.crcUpdate a bytes) t = .next u ∧
    exec (.crcUpdate a (bytes ++ bytes)) s = .next v ∧ (∀ b, u.crc b = v.crc b) ∧
    (u.crc a = t.crc a ↔ t.crc a = s.crc a)) ∧
  (∀ a bytes, bytes ≠ [] → bytes.length ≤ 37 → ∃ s t u, exec (.crcUpdate a bytes) s = .next t ∧
    exec (.crcUpdate a bytes) t = .next u ∧ u.crc a ≠ t.crc a)

/-- How a byte stream is cut into `CRC.UPDATE` requests does not matter, the empty cut included (40_crc.md
R95, corner cases; R93, derived there). -/
def Obligations.CuttingTheStreamChangesNothing : Prop :=
  ∀ a (cuts : List (List Byte)) s,
    s.pending = cuts.map (fun c => .request (encode (.crcUpdate a c))) →
    ∃ t u, serveAll s = .next t ∧ exec (.crcUpdate a cuts.flatten) s = .next u ∧ ∀ b, t.crc b = u.crc b

/-- A register holding zero stays zero under any number of zero bytes (40_crc.md R95, derived there). -/
def Obligations.ZeroRegisterStaysZero : Prop :=
  ∀ a n s, s.crc a = 0#32 → ∃ t, exec (.crcUpdate a (zeros n)) s = .next t ∧ t.crc a = 0#32

/-- The bit step in plain arithmetic: double modulo 2^32, and exclusive-or the polynomial in when the top
bit and the input bit differ (40_crc.md R91). From general knowledge G1, decision D10 (log 9). -/
def Obligations.BitStepIsShiftAndXor : Prop :=
  ∀ r b, (crcStepBit r b).toNat =
    (2 * r.toNat % 2 ^ 32) ^^^ (if decide (2 ^ 31 ≤ r.toNat) = b then 0 else 0x04C11DB7)

/-- The second form of the byte step, which folds the byte into bits 31:24 first, is the first form
(40_crc.md R92, derived there; decision D10, log 9). -/
def Obligations.FoldedByteStepAgrees : Prop :=
  ∀ r b, crcStepByteFolded r b = crcStepByte r b

/-- The table form of the byte step is the bit-serial form (40_crc.md R98, derived there). -/
def Obligations.TableByteStepAgrees : Prop :=
  (∀ r b, crcStepByteTable r b = crcStepByte r b) ∧
  crcTable 0#8 = 0x00000000#32 ∧ crcTable 1#8 = 0x04C11DB7#32 ∧ crcTable 2#8 = 0x09823B6E#32 ∧
  crcTable 128#8 = 0x690CE0EE#32 ∧ crcTable 255#8 = 0xB1F740B4#32

/-- For fixed bytes the update is a bijection of the 2^32 register values (40_crc.md R92 for one byte,
derived there), so every register value has exactly one predecessor (10_state.md R23). -/
def Obligations.UpdateIsBijective : Prop :=
  ∀ s, Function.Bijective (fun r => crcUpdate r s)

/-- The update function is linear over GF(2) (40_crc.md R97, derived there). -/
def Obligations.UpdateIsLinear : Prop :=
  ∀ r r' s, crcUpdate (r ^^^ r') s = crcUpdate r s ^^^ crcUpdate r' (zeros s.length)

/-- The polynomial form of the bit step and of the update (40_crc.md R97, derived there; the reading is
from general knowledge G2). -/
def Obligations.UpdateIsPolynomialRemainder : Prop :=
  (∀ r b, wordPoly (crcStepBit r b) =
    Polynomial.modByMonic (wordPoly r * Polynomial.X + (if b then Polynomial.X ^ 32 else 0)) generator) ∧
  (∀ r s, wordPoly (crcUpdate r s) =
    Polynomial.modByMonic (wordPoly r * Polynomial.X ^ (8 * s.length) + bytesPoly s * Polynomial.X ^ 32)
      generator)

/-- Feeding an accumulator its own digest drives it to zero (40_crc.md R97, derived there). -/
def Obligations.OwnDigestDrivesRegisterToZero : Prop :=
  ∀ a s, ∃ d t u, exec (.crcDigest a) s = .next t ∧ t.responses = s.responses ++ [.ok (.digest d)] ∧
    exec (.crcUpdate a d) t = .next u ∧ u.crc a = 0#32

/-- A digest between two updates disturbs nothing (40_crc.md R101, derived there). -/
def Obligations.DigestThenContinue : Prop :=
  ∀ a bs cs s,
    s.pending = [.request (encode (.crcUpdate a bs)), .request (encode (.crcDigest a)),
      .request (encode (.crcUpdate a cs)), .request (encode (.crcDigest a))] →
    ∃ t, serveAll s = .next t ∧ t.responses = s.responses ++
      [.ok .none, .ok (.digest (be32 (crcUpdate (s.crc a) bs))),
       .ok .none, .ok (.digest (be32 (crcUpdate (s.crc a) (bs ++ cs))))]

/-- The check value of the nine bytes "123456789" and the golden vector of four zero bytes (40_crc.md R100;
95_test_vectors.md V-A3, V-A7; general knowledge G1, G3). -/
def Obligations.CheckValueOfTheAlgorithm : Prop :=
  crcUpdate 0xFFFFFFFF#32 [0x31#8, 0x32#8, 0x33#8, 0x34#8, 0x35#8, 0x36#8, 0x37#8, 0x38#8, 0x39#8]
    = 0x0376E6E7#32 ∧
  crcUpdate 0xFFFFFFFF#32 [0#8, 0#8, 0#8, 0#8] = 0xC704DD7B#32

/-! ### The codec unit -/

/-- `FC.ENCODE` of at most 8 bytes answers the 36-byte envelope, given offset by offset, and leaves
everything else alone (41_framecodec.md R110; 30_encoding.md R65, R70). For ids above `0xFFFFFF` offset 24 is
the spec's decision D11 (log 10). -/
def Obligations.EncodeLaysOutTheEnvelope : Prop :=
  ∀ id data s, data.length ≤ 8 →
    ∃ e, exec (.fcEncode id data) s = .next (s.respond (.ok (.env e))) ∧ e.length = 36 ∧
      ∀ k, k < 36 → byteAt e k =
        if k = 1 then 0x24#8 else if k = 3 then 0x80#8
        else if k = 21 then BitVec.ofNat 8 data.length
        else if k = 24 then BitVec.ofNat 8 (id.toNat / 2 ^ 24)
        else if k = 25 then BitVec.ofNat 8 (id.toNat / 2 ^ 16)
        else if k = 26 then BitVec.ofNat 8 (id.toNat / 2 ^ 8)
        else if k = 27 then BitVec.ofNat 8 id.toNat
        else if 28 ≤ k ∧ k < 28 + data.length then byteAt data (k - 28)
        else 0#8

/-- `InvalidData` is raised by `FC.ENCODE` exactly when its data is 9 bytes or longer; no envelope is produced
and no register is read or written (60_exceptions.md R151). -/
def Obligations.InvalidDataExactlyWhenTooLong : Prop :=
  (∀ id data, 9 ≤ data.length → ∀ s, exec (.fcEncode id data) s = .next (s.respond (.err .invalidData))) ∧
  (∀ id data, data.length ≤ 8 → ∃ e, ∀ s, exec (.fcEncode id data) s = .next (s.respond (.ok (.env e)))) ∧
  (∀ i s t, exec i s = .next t → t.responses = s.responses ++ [.err .invalidData] →
    ∃ id data, i = .fcEncode id data ∧ 9 ≤ data.length)

/-- `MalformedEnvelope` is raised by `FC.DECODE` exactly when its sequence is not 36 bytes long, whatever the
bytes; no frame is produced and no register is read or written (60_exceptions.md R152). -/
def Obligations.MalformedEnvelopeExactlyWhenNot36 : Prop :=
  (∀ env, env.length ≠ 36 → ∀ s, exec (.fcDecode env) s = .next (s.respond (.err .malformedEnvelope))) ∧
  (∀ env, env.length = 36 → ∃ f, ∀ s, exec (.fcDecode env) s = .next (s.respond (.ok (.frame f)))) ∧
  (∀ i s t, exec i s = .next t → t.responses = s.responses ++ [.err .malformedEnvelope] →
    ∃ env, i = .fcDecode env ∧ env.length ≠ 36)

/-- The markers and the unnamed offsets (30_encoding.md R66, R67, R68): encode writes `0x24`, `0x80` and zeros;
decode looks at none of them, and what it checks is the length of the sequence, not the marker. -/
def Obligations.MarkersWrittenAndIgnored : Prop :=
  unnamedOffsets = [0, 2, 4, 5, 6, 7, 8, 9, 10, 11, 12, 13, 14, 15, 16, 17, 18, 19, 20, 22, 23] ∧
  (∀ id data, data.length ≤ 8 → ∃ e, (∀ s, exec (.fcEncode id data) s = .next (s.respond (.ok (.env e)))) ∧
    byteAt e 1 = 0x24#8 ∧ byteAt e 3 = 0x80#8 ∧ ∀ k ∈ unnamedOffsets, byteAt e k = 0#8) ∧
  (∀ env k b s, (k = 1 ∨ k = 3 ∨ k ∈ unnamedOffsets) →
    exec (.fcDecode (env.set k b)) s = exec (.fcDecode env) s)

/-- The dlc at offset 21 (30_encoding.md R69): the data length on encode; on decode any of the 256 values,
returned as it is. -/
def Obligations.DlcByteIsRaw : Prop :=
  (∀ id data s, data.length ≤ 8 → ∃ e, exec (.fcEncode id data) s = .next (s.respond (.ok (.env e))) ∧
    (byteAt e 21).toNat = data.length) ∧
  (∀ env s, env.length = 36 → ∃ f, exec (.fcDecode env) s = .next (s.respond (.ok (.frame f))) ∧
    f.dlc = byteAt env 21)

/-- `FC.DECODE` of 36 bytes answers the frame, field by field, and leaves everything else alone
(41_framecodec.md R113, R114). For a dlc above 8 the length is the spec's decision D12 (log 11). -/
def Obligations.DecodeReadsTheFrame : Prop :=
  ∀ env s, env.length = 36 →
    ∃ f, exec (.fcDecode env) s = .next (s.respond (.ok (.frame f))) ∧
      f.id.toNat = (byteAt env 24).toNat * 2 ^ 24 + (byteAt env 25).toNat * 2 ^ 16 +
        (byteAt env 26).toNat * 2 ^ 8 + (byteAt env 27).toNat ∧
      f.dlc = byteAt env 21 ∧ f.payloadLen.toNat = min (byteAt env 21).toNat 8 ∧
      f.data.length = f.payloadLen.toNat ∧
      ∀ k, k < f.payloadLen.toNat → byteAt f.data k = byteAt env (28 + k)

/-- Two 36-byte envelopes that agree on the dlc, the id and the first min(dlc, 8) data bytes decode alike
(20_memory.md R43, derived there; decision D12, log 11). -/
def Obligations.DecodeReadsNothingElse : Prop :=
  ∀ env env' s, env.length = 36 → env'.length = 36 →
    (∀ k, k = 21 ∨ (24 ≤ k ∧ k ≤ 27) ∨ (28 ≤ k ∧ k < 28 + min (byteAt env 21).toNat 8) →
      byteAt env k = byteAt env' k) →
    exec (.fcDecode env) s = exec (.fcDecode env') s

/-- Encode then decode gives the id and the data back, with dlc and payload_len the data length
(41_framecodec.md R117, derived there; ids above `0xFFFFFF` by decision D11, log 10). -/
def Obligations.DecodeOfEncodedFrame : Prop :=
  ∀ id data s, data.length ≤ 8 →
    ∃ e f, exec (.fcEncode id data) s = .next (s.respond (.ok (.env e))) ∧
      (∀ u, exec (.fcDecode e) u = .next (u.respond (.ok (.frame f)))) ∧
      f.id = id ∧ f.dlc.toNat = data.length ∧ f.payloadLen.toNat = data.length ∧ f.data = data

/-- Decode then encode (41_framecodec.md R118, derived there): for a dlc of at most 8 the markers are
restored and everything beyond the frame zeroed, which is no change exactly for a canonical envelope; for a
dlc above 8 offset 21 becomes 8. -/
def Obligations.EncodeOfDecodedFrame : Prop :=
  ∀ env s, env.length = 36 →
    ∃ f e, exec (.fcDecode env) s = .next (s.respond (.ok (.frame f))) ∧
      (∀ u, exec (.fcEncode f.id f.data) u = .next (u.respond (.ok (.env e)))) ∧ e.length = 36 ∧
      ((byteAt env 21).toNat ≤ 8 → (e = env ↔ Canonical env) ∧
        ∀ k, k < 36 → byteAt e k =
          if k = 1 then 0x24#8 else if k = 3 then 0x80#8
          else if k ∈ unnamedOffsets then 0#8
          else if 28 + (byteAt env 21).toNat ≤ k then 0#8
          else byteAt env k) ∧
      (8 < (byteAt env 21).toNat → byteAt e 21 = 8#8 ∧ e ≠ env)

/-- The canonical envelopes are exactly the encodings, each of exactly one id and at most 8 data bytes
(41_framecodec.md R112, derived there). -/
def Obligations.CanonicalEnvelopesAreOneToOne : Prop :=
  ∀ env, Canonical env ↔ ∃! p : Word × List Byte, p.2.length ≤ 8 ∧ encodeEnv p.1 p.2 = env

/-- The codec unit has no state (10_state.md R24): equal operands give equal answers at any two states, and
the only effect is the answer. -/
def Obligations.CodecHasNoState : Prop :=
  (∀ id data, ∃ r, ∀ s, exec (.fcEncode id data) s = .next (s.respond r)) ∧
  (∀ env, ∃ r, ∀ s, exec (.fcDecode env) s = .next (s.respond r))

/-! ### Errors -/

/-- Operations that cannot fail (60_exceptions.md R154): the three CRC operations for any index, bytes and
register; `FC.ENCODE` for any id; `FC.DECODE` for any 36 bytes; and no error kind but the block's three. -/
def Obligations.OperationsThatCannotFail : Prop :=
  (∀ a s, ∃ t, exec (.crcInit a) s = .next t ∧ t.responses = s.responses ++ [.ok .none]) ∧
  (∀ a bytes s, ∃ t, exec (.crcUpdate a bytes) s = .next t ∧ t.responses = s.responses ++ [.ok .none]) ∧
  (∀ a s, ∃ t d, exec (.crcDigest a) s = .next t ∧ t.responses = s.responses ++ [.ok (.digest d)]) ∧
  (∀ id data s, data.length ≤ 8 →
    ∃ t e, exec (.fcEncode id data) s = .next t ∧ t.responses = s.responses ++ [.ok (.env e)]) ∧
  (∀ env s, env.length = 36 →
    ∃ t f, exec (.fcDecode env) s = .next t ∧ t.responses = s.responses ++ [.ok (.frame f)]) ∧
  (∀ k : ErrorKind, k = .invalidData ∨ k = .malformedEnvelope ∨ k = .illegalRequest)

/-- `IllegalRequest` is raised exactly for the eleven reserved codes, whatever the other fields hold and
however long the payload is, and changes no register (30_encoding.md R74; 60_exceptions.md R153, R155).
Decisions D5, D16 (log 13). -/
def Obligations.IllegalRequestExactlyReserved : Prop :=
  ∀ s r rest, s.pending = .request r :: rest →
    (r.op ∈ reservedOps → step s = .next ((s.withPending rest).respond (.err .illegalRequest))) ∧
    (r.op ∉ reservedOps → ∀ t, step s = .next t → t.responses ≠ s.responses ++ [.err .illegalRequest])

/-- A request that raises changes nothing but the list of responses (60_exceptions.md R156). Decision D15
(log 3). -/
def Obligations.ErrorsChangeNothing : Prop :=
  ∀ s t k, step s = .next t → t.responses = s.responses ++ [.err k] →
    ∃ r, s.pending = .request r :: t.pending ∧ t = (s.withPending t.pending).respond (.err k)

/-- After an error the block serves the rest exactly as if the failing request had not been issued
(60_exceptions.md R158). Decision D15 (log 3). -/
def Obligations.ErrorsLeaveNoTrace : Prop :=
  ∀ s t r rest k, s.pending = .request r :: rest → step s = .next t →
    t.responses = s.responses ++ [.err k] →
    ∃ u v w, serveAll s = .next u ∧ serveAll (s.withPending rest) = .next v ∧ (∀ a, u.crc a = v.crc a) ∧
      u.responses = s.responses ++ .err k :: w ∧ v.responses = s.responses ++ w

/-! ### Rules of the whole machine -/

/-- A step changes `crc[a]` only for a hardware reset, a `CRC.INIT a` or a `CRC.UPDATE a` (10_state.md R22). -/
def Obligations.RegisterWrittenOnlyByItsOperations : Prop :=
  ∀ s t a, step s = .next t → t.crc a ≠ s.crc a →
    ∃ e rest, s.pending = e :: rest ∧
      (e = .reset ∨ ∃ r, e = .request r ∧
        (decode r = .ok (.crcInit a) ∨ ∃ bytes, decode r = .ok (.crcUpdate a bytes)))

/-- Every step answers a next state from every state: the block cannot hang (70_reset_and_hazards.md R182).
Decision D19 (log 17). -/
def Obligations.EveryStepAnswers : Prop :=
  ∀ s, ∃ t, step s = .next t

/-- Every pending event is served, and every request gets exactly one response (30_encoding.md R63,
70_reset_and_hazards.md R182). Decisions D6, D19 (log 13, log 17). -/
def Obligations.EveryRequestGetsOneResponse : Prop :=
  ∀ s, ∃ t w, serveAll s = .next t ∧ t.pending = [] ∧ t.responses = s.responses ++ w ∧
    w.length = (requestsOf s.pending).length

/-- Serving a sequence of events is serving its first part, then the rest from the state that leaves
(20_memory.md R52). Decision D2 (log 16). -/
def Obligations.ServingComposes : Prop :=
  ∀ (s : State) xs ys, ∃ t, serveAll (s.withPending xs) = .next t ∧
    serveAll (s.withPending (xs ++ ys)) = serveAll (t.withPending ys)

/-- After any run each register is what its own events alone make of it: initialised by resets and its
`CRC.INIT`s, fed by its `CRC.UPDATE`s, touched by nothing else (10_state.md R22, 20_memory.md R52). -/
def Obligations.RegistersFollowTheirOwnEvents : Prop :=
  ∀ s, ∃ t, serveAll s = .next t ∧ ∀ a, t.crc a = crcAfter a (s.crc a) s.pending

/-- Continuity: an accumulator that is not initialised during a run ends with the CRC, from its start value,
of exactly the bytes fed to it, in order, whatever else is served between (40_crc.md R93; 95_test_vectors.md
S7). -/
def Obligations.ContinuousAccumulation : Prop :=
  ∀ s a, (∀ e ∈ s.pending, e.inits a = false) →
    ∃ t, serveAll s = .next t ∧ t.crc a = crcUpdate (s.crc a) (s.pending.flatMap (Event.fed a))

/-- Neither accumulator can be seen through the other: two runs of the same events from states that differ
in the other register end with the same `crc[a]`, and, if no digest of the other is asked for, with the same
responses (10_state.md R22, derived there). -/
def Obligations.OtherAccumulatorIsInvisible : Prop :=
  ∀ s u a, s.pending = u.pending → s.responses = u.responses → s.crc a = u.crc a →
    ∃ t v, serveAll s = .next t ∧ serveAll u = .next v ∧ t.crc a = v.crc a ∧
      ((∀ r, .request r ∈ s.pending → decode r ≠ .ok (.crcDigest a.other)) → t.responses = v.responses)

/-- The invariant: every step keeps every response in the shape 30_encoding.md R63 gives it: 4-byte digests,
canonical 36-byte envelopes, frames of `payload_len = min(dlc, 8)` bytes. Decisions D6, D12 (log 11, 13). -/
def Obligations.StepsKeepResponsesShaped : Prop :=
  ∀ s t, s.Shaped → step s = .next t → t.Shaped

/-- The invariant holds after reset (no response has been given; log 2). -/
def Obligations.ResetResponsesAreShaped : Prop := State.reset.Shaped

/-! ### The surrounding data formats (outside the block, log 20) -/

/-- The eight data bytes of a command, and its envelope, always with dlc 8 (45_surrounding_protocol.md
R132). -/
def Obligations.CommandDataLayout : Prop :=
  (∀ (boardId cmd : Byte) (par1 : BitVec 16) (q0 q1 q2 q3 : Byte), ∃ lo hi,
    cmdData boardId cmd par1 [q0, q1, q2, q3] = [boardId, cmd, lo, hi, q3, q2, q1, q0] ∧
    lo.toNat = par1.toNat % 256 ∧ hi.toNat = par1.toNat / 256) ∧
  (∀ (boardId : Byte) (cmd : Cmd) (par1 : BitVec 16) (par2 : List Byte), par2.length = 4 →
    commandEnvelope boardId cmd par1.toNat par2 = encodeEnv 0xB0#32 (cmdData boardId cmd.code par1 par2) ∧
    byteAt (commandEnvelope boardId cmd par1.toNat par2) 21 = 8#8) ∧
  cmdData 0x05#8 1#8 0x0102#16 [0xEF#8, 0xBE#8, 0xAD#8, 0xDE#8] =
    [0x05#8, 0x01#8, 0x02#8, 0x01#8, 0xDE#8, 0xAD#8, 0xBE#8, 0xEF#8]

/-- The two reversals cancel for a word and swap a digest: bytes 4 to 7 of a `WBUF` are the word in file
order, of a digest command the register little-endian (45_surrounding_protocol.md R136, R137). -/
def Obligations.NetWireOrder : Prop :=
  (∀ boardId par1 (word : List Byte), word.length = 4 →
    slice (cmdData boardId Cmd.wbuf.code par1 (toCrcOrder word)) 4 8 = word) ∧
  (∀ boardId (cmd : Cmd) par1 (v : Word) k, k < 4 →
    (byteAt (cmdData boardId cmd.code par1 (be32 v)) (4 + k)).toNat = v.toNat / 2 ^ (8 * k) % 2 ^ 8)

/-- A decoded command envelope is no response to anything: its id is the command's (95_test_vectors.md V-P9;
45_surrounding_protocol.md R133). -/
def Obligations.EchoedCommandIsNoResponse : Prop :=
  ∀ boardId (cmd : Cmd) par1 (par2 : List Byte) b c, par2.length = 4 →
    (decodeEnv (commandEnvelope boardId cmd par1 par2)).id = 0xB0#32 ∧
    isResponse (decodeEnv (commandEnvelope boardId cmd par1 par2)) b c = false

/-- Padding and cutting (45_surrounding_protocol.md R134; 95_test_vectors.md S2, S3): a padded image is the
file and then fewer than 1024 zeros, a multiple of 1024 long, and its pages of 256 words of 4 bytes, in
order, are the image. -/
def Obligations.PaddingAndPages : Prop :=
  (∀ file, ∃ n, n < 1024 ∧ padImage file = file ++ zeros n ∧ (padImage file).length % 1024 = 0) ∧
  (∀ image : List Byte, image.length % 1024 = 0 →
    ((List.range (pageCount image)).map (fun p => (pageWords image p).flatten)).flatten = image ∧
    ∀ p, p < pageCount image →
      (pageWords image p).length = 256 ∧ ∀ word ∈ pageWords image p, word.length = 4)

/-- What a run of the Programmer sends, whatever arrives: the first `n` of the run's envelopes, where every
command before the last one sent was accepted (answered with result 0). A run that aborts has sent at least one
command and the last one sent is the one that was not accepted, so nothing follows the first failure; a run that
ends in Done has sent them all, every one accepted: per page 256 `WBUF` and one `WPAGE` with the CRC of the
page's reversed words, then one `WCRC` with the CRC of the whole reversed-word stream
(45_surrounding_protocol.md R140, R141, R143; 95_test_vectors.md S6, S7, S8, S10). The model's choices here are
log 20 and log 22: the `k`-th list of arrivals belongs to the `k`-th command. -/
def Obligations.ProgrammerSendsThePrescribedCommands : Prop :=
  ∀ boardId image σ, σ.block.crc .image = 0xFFFFFFFF#32 →
    (runEnvelopes boardId image).length = 257 * pageCount image + 1 ∧
    ∃ n, n ≤ (runEnvelopes boardId image).length ∧
      (runProgrammer boardId image σ).2.sent = σ.sent ++ (runEnvelopes boardId image).take n ∧
      (∀ k, k + 1 < n → σ.Accepts boardId (pageCount image) k) ∧
      (∀ why, (runProgrammer boardId image σ).1 = .aborted why →
        0 < n ∧ ¬ σ.Accepts boardId (pageCount image) (n - 1)) ∧
      ((runProgrammer boardId image σ).1 = .done →
        n = (runEnvelopes boardId image).length ∧ ∀ k, k < n → σ.Accepts boardId (pageCount image) k)
end

