-- ==== Sys2Proof/Laws/Bytes.lean ====
section
/-! SUPPORT. The byte-sequence operations: lengths, reads after writes, and the two byte orders. -/

namespace Sys2Proof.Machine

@[simp] theorem zeros_length (n : Nat) : (zeros n).length = n := List.length_replicate

@[simp] theorem byteAt_zeros (n i : Nat) : byteAt (zeros n) i = 0#8 := by
  simp only [byteAt, zeros, List.getD_eq_getElem?_getD, List.getElem?_replicate]
  split <;> rfl

@[simp] theorem slice_length (s : List Byte) (a b : Nat) :
    (slice s a b).length = min (b - a) (s.length - a) := by simp [slice]

theorem byteAt_slice (s : List Byte) (a b i : Nat) (h : i < b - a) :
    byteAt (slice s a b) i = byteAt s (a + i) := by
  simp [byteAt, slice, h]

/-- A read after a write of one byte. -/
theorem byteAt_set (s : List Byte) (i j : Nat) (b : Byte) :
    byteAt (s.set i b) j = if i = j ∧ i < s.length then b else byteAt s j := by
  by_cases hij : i = j
  · subst hij
    by_cases hi : i < s.length <;> simp [byteAt, hi]
  · simp [byteAt, hij]

@[simp] theorem putBytes_length (env : List Byte) (off : Nat) (bs : List Byte) :
    (putBytes env off bs).length = env.length := by
  induction bs generalizing env off with
  | nil => rfl
  | cons b bs ih => simp [putBytes, ih]

/-- A read after a write of several bytes that fit: inside them the byte written, outside the byte before. -/
theorem byteAt_putBytes (env bs : List Byte) (off j : Nat) (h : off + bs.length ≤ env.length) :
    byteAt (putBytes env off bs) j =
      if off ≤ j ∧ j < off + bs.length then byteAt bs (j - off) else byteAt env j := by
  induction bs generalizing env off with
  | nil =>
    simp only [putBytes, List.length_nil, Nat.add_zero]
    split
    · omega
    · rfl
  | cons b bs ih =>
    simp only [List.length_cons] at h
    rw [putBytes, ih _ _ (by simp; omega), byteAt_set]
    simp only [List.length_cons]
    by_cases h1 : off + 1 ≤ j ∧ j < off + 1 + bs.length
    · have : j - off = (j - (off + 1)) + 1 := by omega
      rw [if_pos h1, if_pos (by omega), this]
      simp [byteAt]
    · rw [if_neg h1]
      by_cases h2 : off = j
      · subst h2
        rw [if_pos (by omega), if_pos (by omega)]
        simp [byteAt]
      · rw [if_neg (by omega), if_neg (by omega)]

/-- Two sequences of one length that agree at every offset are equal. -/
theorem bytes_ext {s t : List Byte} (hl : s.length = t.length)
    (h : ∀ i, i < s.length → byteAt s i = byteAt t i) : s = t := by
  apply List.ext_getElem hl
  intro i h1 h2
  have := h i h1
  simpa [byteAt, h1, h2] using this

@[simp] theorem be32_length (v : Word) : (be32 v).length = 4 := rfl

@[simp] theorem le16_length (p : BitVec 16) : (le16 p).length = 2 := rfl

/-- The id assembled from the bytes of `be32` is the id (R11, R71). -/
theorem fromBe32_be32 (v : Word) :
    fromBe32 (v.extractLsb' 24 8) (v.extractLsb' 16 8) (v.extractLsb' 8 8) (v.extractLsb' 0 8) = v := by
  apply BitVec.eq_of_toNat_eq
  have hv := v.isLt
  simp only [fromBe32, BitVec.toNat_add, BitVec.toNat_shiftLeft, BitVec.toNat_setWidth,
    BitVec.extractLsb'_toNat, Nat.shiftRight_eq_div_pow, Nat.shiftLeft_eq]
  omega

@[simp] theorem encodeEnv_length (id : Word) (data : List Byte) : (encodeEnv id data).length = 36 := by
  simp [encodeEnv, Config.envLen]

end Sys2Proof.Machine
end

