-- ==== Sys2Proof/Laws/Crc.lean ====
section
/-! SUPPORT. The update function as a left fold (40_crc.md R93). -/

namespace Sys2Proof.Machine

@[simp] theorem crcUpdate_nil (r : Word) : crcUpdate r [] = r := rfl

@[simp] theorem crcUpdate_cons (r : Word) (b : Byte) (s : List Byte) :
    crcUpdate r (b :: s) = crcUpdate (crcStepByte r b) s := rfl

/-- "Incremental": a sequence may be consumed in two parts (R93). -/
theorem crcUpdate_append (r : Word) (s t : List Byte) :
    crcUpdate r (s ++ t) = crcUpdate (crcUpdate r s) t := List.foldl_append

/-- The byte step as eight bit steps, bit 7 first (R92). -/
theorem crcStepByte_eq (r : Word) (b : Byte) :
    crcStepByte r b =
      crcStepBit (crcStepBit (crcStepBit (crcStepBit (crcStepBit (crcStepBit (crcStepBit (crcStepBit r
        (b.getLsbD 7)) (b.getLsbD 6)) (b.getLsbD 5)) (b.getLsbD 4)) (b.getLsbD 3)) (b.getLsbD 2))
        (b.getLsbD 1)) (b.getLsbD 0) := rfl

end Sys2Proof.Machine
end

