-- ==== Sys2Proof/Laws/PerInstr.lean ====
section
/-! SUPPORT. Per-instruction statements: the selector each operation is encoded with matches its row of
opcode_table.json. -/

namespace Sys2Proof.Laws

/-- The `match` value of the operation's row in opcode_table.json, over `SEL[4:0]`. -/
def tableMatch : Instr → BitVec 5
  | .crcInit _ => 0x02#5
  | .crcUpdate _ _ => 0x04#5
  | .crcDigest _ => 0x06#5
  | .fcEncode _ _ => 0x10#5
  | .fcDecode _ => 0x12#5

/-- The encoded selector, under the table's mask `0x1E`, is the row's `match`. -/
def Selector.Statement (i : Instr) : Prop := (encode i).sel &&& 0x1E#5 = tableMatch i

theorem Selector.crcInit (a : Acc) : Selector.Statement (.crcInit a) := by
  cases a <;> simp [Selector.Statement, encode, Request.sel, Acc.toBit, tableMatch]

theorem Selector.crcUpdate (a : Acc) (bytes : List Byte) : Selector.Statement (.crcUpdate a bytes) := by
  cases a <;> simp [Selector.Statement, encode, Request.sel, Acc.toBit, tableMatch]

theorem Selector.crcDigest (a : Acc) : Selector.Statement (.crcDigest a) := by
  cases a <;> simp [Selector.Statement, encode, Request.sel, Acc.toBit, tableMatch]

theorem Selector.fcEncode (id : Word) (data : List Byte) : Selector.Statement (.fcEncode id data) :=
  by
  simp [Selector.Statement, encode, Request.sel, tableMatch]

theorem Selector.fcDecode (env : List Byte) : Selector.Statement (.fcDecode env) :=
  by
  simp [Selector.Statement, encode, Request.sel, tableMatch]

end Sys2Proof.Laws
end

