-- ==== Sys2Proof/Laws/State.lean ====
section
/-! SUPPORT. One lemma per field of State per update, so that no later proof unfolds a record update. -/

namespace Sys2Proof.Machine

section fields
variable (s : State) (a : Acc) (v w : Word) (r : Response) (k : ErrorKind) (x : Value) (es : List Event)

@[simp] theorem crc_page : s.crc .page = s.crc0 := rfl
@[simp] theorem crc_image : s.crc .image = s.crc1 := rfl

@[simp] theorem setCrc_pending : (s.setCrc a v).pending = s.pending := by cases a <;> rfl
@[simp] theorem setCrc_responses : (s.setCrc a v).responses = s.responses := by cases a <;> rfl
@[simp] theorem setCrc_page_crc0 : (s.setCrc .page v).crc0 = v := rfl
@[simp] theorem setCrc_page_crc1 : (s.setCrc .page v).crc1 = s.crc1 := rfl
@[simp] theorem setCrc_image_crc0 : (s.setCrc .image v).crc0 = s.crc0 := rfl
@[simp] theorem setCrc_image_crc1 : (s.setCrc .image v).crc1 = v := rfl

@[simp] theorem respond_crc0 : (s.respond r).crc0 = s.crc0 := rfl
@[simp] theorem respond_crc1 : (s.respond r).crc1 = s.crc1 := rfl
@[simp] theorem respond_pending : (s.respond r).pending = s.pending := rfl
@[simp] theorem respond_responses : (s.respond r).responses = s.responses ++ [r] := rfl
@[simp] theorem respond_crc : (s.respond r).crc a = s.crc a := by cases a <;> rfl

@[simp] theorem complete_crc0 : (complete x s).crc0 = s.crc0 := rfl
@[simp] theorem complete_crc1 : (complete x s).crc1 = s.crc1 := rfl
@[simp] theorem complete_pending : (complete x s).pending = s.pending := rfl
@[simp] theorem complete_responses : (complete x s).responses = s.responses ++ [.ok x] := rfl
@[simp] theorem complete_crc : (complete x s).crc a = s.crc a := by cases a <;> rfl

@[simp] theorem raiseError_crc0 : (raiseError k s).crc0 = s.crc0 := rfl
@[simp] theorem raiseError_crc1 : (raiseError k s).crc1 = s.crc1 := rfl
@[simp] theorem raiseError_pending : (raiseError k s).pending = s.pending := rfl
@[simp] theorem raiseError_responses : (raiseError k s).responses = s.responses ++ [.err k] := rfl
@[simp] theorem raiseError_crc : (raiseError k s).crc a = s.crc a := by cases a <;> rfl

@[simp] theorem hardwareReset_crc0 : (hardwareReset s).crc0 = Config.crcInit := rfl
@[simp] theorem hardwareReset_crc1 : (hardwareReset s).crc1 = Config.crcInit := rfl
@[simp] theorem hardwareReset_pending : (hardwareReset s).pending = s.pending := rfl
@[simp] theorem hardwareReset_responses : (hardwareReset s).responses = s.responses := rfl
@[simp] theorem hardwareReset_crc : (hardwareReset s).crc a = Config.crcInit := by cases a <;> rfl

@[simp] theorem withPending_crc0 : (s.withPending es).crc0 = s.crc0 := rfl
@[simp] theorem withPending_crc1 : (s.withPending es).crc1 = s.crc1 := rfl
@[simp] theorem withPending_pending : (s.withPending es).pending = es := rfl
@[simp] theorem withPending_responses : (s.withPending es).responses = s.responses := rfl
@[simp] theorem withPending_crc : (s.withPending es).crc a = s.crc a := by cases a <;> rfl

/-- What a register write does to the registers: the named one changes, the other does not (R22). -/
theorem crc_setCrc (b : Acc) : (s.setCrc a v).crc b = if b = a then v else s.crc b := by
  cases a <;> cases b <;> rfl

@[simp] theorem crc_setCrc_same : (s.setCrc a v).crc a = v := by cases a <;> rfl
@[simp] theorem crc_setCrc_other : (s.setCrc a v).crc a.other = s.crc a.other := by cases a <;> rfl

/-- Writing back what a register holds changes nothing. -/
theorem setCrc_crc : s.setCrc a (s.crc a) = s := by cases a <;> rfl

/-- A second write of a register wins. -/
theorem setCrc_setCrc : (s.setCrc a v).setCrc a w = s.setCrc a w := by cases a <;> rfl

end fields

/-- Two states are equal when their registers, inputs to come and responses are. -/
theorem state_ext {s t : State} (hcrc : ∀ a, s.crc a = t.crc a) (hp : s.pending = t.pending)
    (hr : s.responses = t.responses) : s = t := by
  have h0 := hcrc .page
  have h1 := hcrc .image
  cases s
  cases t
  simp_all

end Sys2Proof.Machine
end

