-- ==== Sys2Proof/Laws/Step.lean ====
section
/-! SUPPORT. Inversion of one meaning and of one step: everything either can do, guards included. -/

namespace Sys2Proof.Machine

/-- Everything an operation can do: at most one register of the index it names is written, and one
response is given. -/
theorem exec_cases {i : Instr} {s t : State} (h : exec i s = .next t) :
    (∃ a, i = .crcInit a ∧ t = complete .none (s.setCrc a Config.crcInit)) ∨
    (∃ a bs, i = .crcUpdate a bs ∧ t = complete .none (s.setCrc a (crcUpdate (s.crc a) bs))) ∨
    (∃ a, i = .crcDigest a ∧ t = complete (.digest (be32 (s.crc a))) s) ∨
    (∃ id data, i = .fcEncode id data ∧ 8 < data.length ∧ t = raiseError .invalidData s) ∨
    (∃ id data, i = .fcEncode id data ∧ data.length ≤ 8 ∧ t = complete (.env (encodeEnv id data)) s) ∨
    (∃ env, i = .fcDecode env ∧ env.length ≠ 36 ∧ t = raiseError .malformedEnvelope s) ∨
    (∃ env, i = .fcDecode env ∧ env.length = 36 ∧ t = complete (.frame (decodeEnv env)) s) := by
  cases i with
  | crcInit a => exact .inl ⟨a, rfl, by simpa [exec, execCrcInit] using h.symm⟩
  | crcUpdate a bs => exact .inr (.inl ⟨a, bs, rfl, by simpa [exec, execCrcUpdate] using h.symm⟩)
  | crcDigest a => exact .inr (.inr (.inl ⟨a, rfl, by simpa [exec, execCrcDigest] using h.symm⟩))
  | fcEncode id data =>
    by_cases hl : 8 < data.length
    · exact .inr (.inr (.inr (.inl ⟨id, data, rfl, hl, by
        simpa [exec, execFcEncode, Config.maxDlc, hl] using h.symm⟩)))
    · exact .inr (.inr (.inr (.inr (.inl ⟨id, data, rfl, by omega, by
        simpa [exec, execFcEncode, Config.maxDlc, hl] using h.symm⟩))))
  | fcDecode env =>
    by_cases hl : env.length = 36
    · exact .inr (.inr (.inr (.inr (.inr (.inr ⟨env, rfl, hl, by
        simpa [exec, execFcDecode, Config.envLen, hl] using h.symm⟩)))))
    · exact .inr (.inr (.inr (.inr (.inr (.inl ⟨env, rfl, hl, by
        simpa [exec, execFcDecode, Config.envLen, hl] using h.symm⟩)))))

/-- Everything a step can do: idle, reset, refuse a reserved code, or run the decoded operation. -/
theorem step_cases {s t : State} (h : step s = .next t) :
    (s.pending = [] ∧ t = s) ∨
    (∃ rest, s.pending = .reset :: rest ∧ t = hardwareReset (s.withPending rest)) ∨
    (∃ r rest e, s.pending = .request r :: rest ∧ decode r = .error e ∧
      t = raiseError .illegalRequest (s.withPending rest)) ∨
    (∃ r rest i, s.pending = .request r :: rest ∧ decode r = .ok i ∧ exec i (s.withPending rest) = .next t) := by
  unfold step at h
  split at h
  · next hp => exact .inl ⟨hp, by simpa [idle] using h.symm⟩
  · next rest hp => exact .inr (.inl ⟨rest, hp, by simpa using h.symm⟩)
  · next r rest hp =>
    split at h
    · next i hd => exact .inr (.inr (.inr ⟨r, rest, i, hp, hd, h⟩))
    · next e hd => exact .inr (.inr (.inl ⟨r, rest, e, hp, hd, by simpa using h.symm⟩))

end Sys2Proof.Machine
end

