-- ==== Sys2Proof/Laws/Programmer.lean ====
section
/-! SUPPORT. What one request of the Programmer does to the block, everything one wait and one command can do,
and how a one-page run whose every command is accepted ends. -/

namespace Sys2Proof.Machine

section issue
variable (a : Acc) (bs data env : List Byte) (id : Word) (b : State)

/-- Presenting a request and taking it off leaves the state as it was. -/
@[simp] theorem present_withPending (e : Event) : (b.present e).withPending b.pending = b := rfl

theorem issue_crcInit : issue (encode (.crcInit a)) b =
    (some (.ok .none), complete .none (b.setCrc a Config.crcInit)) := by
  cases a <;> simp [issue, step, State.present, State.withPending, encode, decode, Acc.toBit, Acc.ofBit, exec,
    execCrcInit, complete, State.respond, State.setCrc]

theorem issue_crcUpdate : issue (encode (.crcUpdate a bs)) b =
    (some (.ok .none), complete .none (b.setCrc a (crcUpdate (b.crc a) bs))) := by
  cases a <;> simp [issue, step, State.present, State.withPending, encode, decode, Acc.toBit, Acc.ofBit, exec,
    execCrcUpdate, complete, State.respond, State.setCrc]

theorem issue_crcDigest : issue (encode (.crcDigest a)) b =
    (some (.ok (.digest (be32 (b.crc a)))), complete (.digest (be32 (b.crc a))) b) := by
  cases a <;> simp [issue, step, State.present, State.withPending, encode, decode, Acc.toBit, Acc.ofBit, exec,
    execCrcDigest, complete, State.respond]

theorem issue_fcEncode (h : data.length ≤ 8) : issue (encode (.fcEncode id data)) b =
    (some (.ok (.env (encodeEnv id data))), complete (.env (encodeEnv id data)) b) := by
  have h' : ¬ data.length > Config.maxDlc := Nat.not_lt.mpr h
  simp [issue, step, State.present, State.withPending, encode, decode, exec, execFcEncode, h', complete,
    State.respond]

theorem issue_fcDecode (h : env.length = 36) : issue (encode (.fcDecode env)) b =
    (some (.ok (.frame (decodeEnv env))), complete (.frame (decodeEnv env)) b) := by
  have h' : env.length = Config.envLen := h
  simp [issue, step, State.present, State.withPending, encode, decode, exec, execFcDecode, h', complete,
    State.respond]

theorem issue_fcEncode_long (h : 8 < data.length) : issue (encode (.fcEncode id data)) b =
    (some (.err .invalidData), raiseError .invalidData b) := by
  have h' : data.length > Config.maxDlc := h
  simp [issue, step, State.present, State.withPending, encode, decode, exec, execFcEncode, h', raiseError,
    State.respond]

theorem issue_fcDecode_wrong (h : env.length ≠ 36) : issue (encode (.fcDecode env)) b =
    (some (.err .malformedEnvelope), raiseError .malformedEnvelope b) := by
  have h' : ¬ env.length = Config.envLen := h
  simp [issue, step, State.present, State.withPending, encode, decode, exec, execFcDecode, h', raiseError,
    State.respond]

end issue

theorem cmdData_length (boardId cmd : Byte) (par1 : BitVec 16) (par2 : List Byte) :
    (cmdData boardId cmd par1 par2).length = 4 + par2.length := by
  simp [cmdData]
  omega

section commands
variable (boardId : Byte) (cmd : Cmd)

/-- CAN data longer than 8 bytes ends the run with `InvalidData`, and nothing is sent (R141). -/
theorem sendCommand_invalidData {par2 : List Byte} (par1 : Nat) (h : 4 < par2.length) (σ : Session) :
    sendCommand boardId cmd par1 par2 σ =
      (some (.invalidData cmd), { σ with block := raiseError .invalidData σ.block }) := by
  have hlen : 8 < (cmdData boardId cmd.code (BitVec.ofNat 16 par1) par2).length := by
    rw [cmdData_length]
    omega
  simp [sendCommand, issue_fcEncode_long _ _ _ hlen]

/-- Everything a wait can do: it changes no register, and its result is 0 exactly when the command is
accepted. -/
theorem waitResponse_spec (ds : List (List Byte)) : ∀ b : State, ∃ o b',
    waitResponse boardId cmd ds b = (o, b') ∧ (∀ a, b'.crc a = b.crc a) ∧
    (o = .ok 0#8 ↔ Accepted boardId cmd ds) := by
  induction ds with
  | nil => exact fun b => ⟨_, b, rfl, fun _ => rfl, by simp [Accepted]⟩
  | cons d ds ih =>
    intro b
    by_cases hl : d.length = 36
    · obtain ⟨o, b', h1, h2, h3⟩ := ih (complete (.frame (decodeEnv d)) b)
      by_cases hr : isResponse (decodeEnv d) boardId cmd.code = true
      · exact ⟨.ok (resultOf (decodeEnv d)), complete (.frame (decodeEnv d)) b,
          by simp [waitResponse, issue_fcDecode _ _ hl, hr], by simp, by simp [Accepted, hl, hr]⟩
      · exact ⟨o, b', by simp [waitResponse, issue_fcDecode _ _ hl, hr, h1], by simp [h2],
          by simp [Accepted, hl, hr, h3]⟩
    · obtain ⟨o, b', h1, h2, h3⟩ := ih (raiseError .malformedEnvelope b)
      cases hf : Config.wrongSizeIsFatal with
      | true => exact ⟨.error (.malformedEnvelope cmd), raiseError .malformedEnvelope b,
          by simp [waitResponse, issue_fcDecode_wrong _ _ hl, hf], by simp, by simp [Accepted, hl, hf]⟩
      | false => exact ⟨o, b', by simp [waitResponse, issue_fcDecode_wrong _ _ hl, hf, h1], by simp [h2],
          by simp [Accepted, hl, hf, h3]⟩

/-- Everything a command can do: its envelope is sent, one list of arrivals is used up, no register changes, and
it goes on exactly when it is accepted. -/
theorem command_spec {par2 : List Byte} (par1 : Nat) (failed : Byte → Abort) (hq : par2.length = 4)
    (σ : Session) : ∃ o σ', command boardId cmd par1 par2 failed σ = (o, σ') ∧
      σ'.sent = σ.sent ++ [commandEnvelope boardId cmd par1 par2] ∧ σ'.arrivals = σ.arrivals.tail ∧
      (∀ a, σ'.block.crc a = σ.block.crc a) ∧ (o = none ↔ Accepted boardId cmd (σ.arrivals.headD [])) := by
  have hlen : (cmdData boardId cmd.code (BitVec.ofNat 16 par1) par2).length ≤ 8 := by
    rw [cmdData_length, hq]
  obtain ⟨o, b', h1, h2, h3⟩ := waitResponse_spec boardId cmd (σ.arrivals.headD [])
    (complete (.env (commandEnvelope boardId cmd par1 par2)) σ.block)
  have hsend : sendCommand boardId cmd par1 par2 σ = (none,
      { σ with block := complete (.env (commandEnvelope boardId cmd par1 par2)) σ.block,
               sent := σ.sent ++ [commandEnvelope boardId cmd par1 par2] }) := by
    simp [sendCommand, issue_fcEncode _ _ _ hlen, commandEnvelope]
  let next : Session := ⟨b', σ.sent ++ [commandEnvelope boardId cmd par1 par2], σ.arrivals.tail, σ.notices⟩
  cases o with
  | error why =>
    exact ⟨some why, next, by simp only [command, hsend, h1, next], rfl, rfl, fun a => by simp [next, h2],
      by rw [← h3]; simp⟩
  | ok code =>
    exact ⟨if code = 0#8 then none else some (failed code), next, by simp only [command, hsend, h1, next],
      rfl, rfl, fun a => by simp [next, h2], by rw [← h3]; simp⟩

/-- Sending a digest is sending the register, most significant byte first, as `par2`. -/
theorem commandDigest_spec (a : Acc) (par1 : Nat) (failed : Byte → Abort) (σ : Session) :
    ∃ o σ', commandDigest a boardId cmd par1 failed σ = (o, σ') ∧
      σ'.sent = σ.sent ++ [commandEnvelope boardId cmd par1 (be32 (σ.block.crc a))] ∧
      σ'.arrivals = σ.arrivals.tail ∧ (∀ a', σ'.block.crc a' = σ.block.crc a') ∧
      (o = none ↔ Accepted boardId cmd (σ.arrivals.headD [])) := by
  simp only [commandDigest, issue_crcDigest]
  simpa using command_spec boardId cmd par1 failed (be32_length (σ.block.crc a))
    { σ with block := complete (.digest (be32 (σ.block.crc a))) σ.block }

/-- Everything writing one Word can do: both accumulators are fed the reversed Word before its `WBUF` is sent. -/
theorem writeWord_spec {word : List Byte} (p w : Nat) (hw : word.length = 4) (σ : Session) :
    ∃ o σ', writeWord boardId p w word σ = (o, σ') ∧
      σ'.sent = σ.sent ++ [commandEnvelope boardId .wbuf w (toCrcOrder word)] ∧
      σ'.arrivals = σ.arrivals.tail ∧
      (∀ a, σ'.block.crc a = crcUpdate (σ.block.crc a) (toCrcOrder word)) ∧
      (o = none ↔ Accepted boardId .wbuf (σ.arrivals.headD [])) := by
  have hq : (toCrcOrder word).length = 4 := by simp [toCrcOrder, hw]
  obtain ⟨o, σ', h1, h2, h3, h4, h5⟩ := command_spec boardId .wbuf w (.writeBufferFailed p w) hq
    { σ with block := (issue (encode (.crcUpdate .image (toCrcOrder word)))
        (issue (encode (.crcUpdate .page (toCrcOrder word))) σ.block).2).2 }
  refine ⟨o, σ', h1, h2, h3, fun a => ?_, h5⟩
  rw [h4, issue_crcUpdate, issue_crcUpdate]
  cases a <;> rfl

end commands

/-- Writing Words that are all accepted goes through and uses up one list of arrivals for each. -/
theorem writeWords_accepted {boardId : Byte} {ds : List (List Byte)} (hd : Accepted boardId .wbuf ds) (p : Nat)
    (rest : List (List (List Byte))) (words : List (List Byte)) (hw : ∀ word ∈ words, word.length = 4) :
    ∀ (w : Nat) (σ : Session), σ.arrivals = List.replicate words.length ds ++ rest →
      ∃ σ', writeWords boardId p w words σ = (none, σ') ∧ σ'.arrivals = rest := by
  induction words with
  | nil => exact fun _ σ ha => ⟨σ, rfl, ha⟩
  | cons word words ih =>
    intro w σ ha
    obtain ⟨o, σ', h1, -, h3, -, h5⟩ := writeWord_spec boardId p w (hw word (by simp)) σ
    have ha' : σ.arrivals = ds :: (List.replicate words.length ds ++ rest) := ha
    obtain rfl : o = none := h5.mpr (by simpa [ha'] using hd)
    obtain ⟨σ'', h6, h7⟩ := ih (fun x hx => hw x (by simp [hx])) (w + 1) σ' (by rw [h3, ha']; rfl)
    exact ⟨σ'', by simp only [writeWords, h1, h6], h7⟩

theorem pageWords_length (image : List Byte) (p : Nat) : (pageWords image p).length = 256 := by
  simp [pageWords, wordsPerPage]

/-- A one-page run whose every command is accepted ends in Done. -/
theorem runProgrammer_one_page {boardId : Byte} {image : List Byte} {d1 d2 d3 : List (List Byte)} {σ : Session}
    (hp : pageCount image = 1) (hw : ∀ word ∈ pageWords image 0, word.length = 4)
    (h1 : Accepted boardId .wbuf d1) (h2 : Accepted boardId .wpage d2) (h3 : Accepted boardId .wcrc d3)
    (ha : σ.arrivals = List.replicate 256 d1 ++ [d2, d3]) :
    (runProgrammer boardId image σ).1 = .done := by
  obtain ⟨σ1, e1, a1⟩ := writeWords_accepted h1 0 [d2, d3] (pageWords image 0) hw 0
    { σ with block := (issue (encode (.crcInit .page)) σ.block).2 } (by rw [pageWords_length]; exact ha)
  obtain ⟨o2, σ2, e2, -, a2, -, n2⟩ := commandDigest_spec boardId .wpage .page 0 (.writePageFailed 0) σ1
  obtain rfl : o2 = none := n2.mpr (by simpa [a1] using h2)
  obtain ⟨o3, σ3, e3, -, -, -, n3⟩ := commandDigest_spec boardId .wcrc .image 1 .writeCrcFailed
    { σ2 with notices := σ2.notices ++ [.pageDone 0] }
  obtain rfl : o3 = none := n3.mpr (by simpa [a2, a1] using h3)
  simp [runProgrammer, hp, writePages, writePage, e1, e2, e3]

end Sys2Proof.Machine
end

