-- ==== Sys2Proof/Machine/Text.lean ====
section
/-! DEFINITION. The written form of an operation (30_encoding.md R76): notation, no behaviour of the block. -/

namespace Sys2Proof.Machine

/-- One upper-case hexadecimal digit. -/
def hexDigit (n : Nat) : Char := Char.ofNat (if n < 10 then 48 + n else 55 + n)

/-- A byte as two hexadecimal digits after a space. -/
def byteText (b : Byte) : String := " " ++ String.ofList [hexDigit (b.toNat / 16), hexDigit (b.toNat % 16)]

/-- Bytes in offset order. -/
def bytesText (s : List Byte) : String := s.foldl (fun t b => t ++ byteText b) ""

/-- An id as `0x` and its hexadecimal digits, without leading zeros. -/
def idText (id : Word) : String :=
  let digits := (be32 id).flatMap (fun b => [b.toNat / 16, b.toNat % 16])
  let kept := digits.dropWhile (· == 0)
  "0x" ++ String.ofList ((if kept.isEmpty then [0] else kept).map hexDigit)

/-- An accumulator index as `0` or `1`; `PAGE` and `IMAGE` are aliases. -/
def accText : Acc → String
  | .page => "0"
  | .image => "1"

/-- The line R76 writes for an operation; ignored fields are not written. -/
def instrText : Instr → String
  | .crcInit a => "CRC.INIT " ++ accText a
  | .crcUpdate a bytes => "CRC.UPDATE " ++ accText a ++ "," ++ bytesText bytes
  | .crcDigest a => "CRC.DIGEST " ++ accText a
  | .fcEncode id data => "FC.ENCODE " ++ idText id ++ "," ++ bytesText data
  | .fcDecode env => "FC.DECODE" ++ bytesText env

end Sys2Proof.Machine
end

