-- ==== Sys2Proof/Tests/Slice0.lean ====
section
/-! SUPPORT. The model's own tests. Expected results are the spec's (30_encoding.md R60, R61; 95_test_vectors.md,
vector ids in the names); witnesses show that the hypotheses of each obligation can be met. -/

namespace Sys2Proof.Tests

open Sys2Proof Sys2Proof.Machine Sys2Proof.Claims

/-- The state an outcome leaves, if any. -/
def after : Outcome → Option State
  | .next t => some t
  | .fault _ => none
  | .refused _ => none

/-- A small state. -/
def st (c0 c1 : Word) (pending : List Event) : State := ⟨c0, c1, pending, []⟩

/-- The envelope of vector V-F11. -/
def envF11 : List Byte :=
  [0x00, 0x24, 0x00, 0x80, 0, 0, 0, 0, 0, 0, 0, 0, 0, 0, 0, 0, 0, 0, 0, 0, 0, 0x03, 0, 0,
    0x00, 0x00, 0x00, 0xB1, 0x07, 0x01, 0x01, 0, 0, 0, 0, 0]

/-- The envelope of vector V-F10: dlc 9. -/
def envF10 : List Byte :=
  zeros 21 ++ [0x09, 0, 0, 0, 0, 0, 0xB1, 0x07, 0x01, 0x00, 0x11, 0x22, 0x33, 0x44, 0x55]

/-- A request with every ignored field of `CRC.DIGEST 0` set (vector V-E6). -/
def reqE6 : Request := ⟨0b0011#4, 0#1, 0xDEADBEEF#32, zeros 50⟩

/-! ### Well-formedness -/

theorem test_wf_accepts_37 : (Instr.fcDecode (zeros 37)).wellFormed = true := by
  simp [Instr.wellFormed, payloadFits, Config.maxPayload, zeros]

theorem test_wf_refuses_long_update (a : Acc) :
    (Instr.crcUpdate a (List.replicate (Config.maxPayload + 1) 0#8)).wellFormed = false := by
  simp [Instr.wellFormed, payloadFits]

theorem test_wf_refuses_long_encode :
    (Instr.fcEncode 0xB0#32 (List.replicate (Config.maxPayload + 1) 0#8)).wellFormed = false := by
  simp [Instr.wellFormed, payloadFits]

theorem test_wf_refuses_long_decode :
    (Instr.fcDecode (List.replicate (Config.maxPayload + 1) 0#8)).wellFormed = false := by
  simp [Instr.wellFormed, payloadFits]

theorem test_wf_refuses_long_request :
    (Request.mk 0b0010#4 0#1 0#32 (List.replicate (Config.maxPayload + 1) 0#8)).wellFormed = false := by
  simp [Request.wellFormed, payloadFits]

/-! ### Decoding, one word per constructor (R60, R61) -/

theorem test_decode_init_image : decode ⟨0b0001#4, 1#1, 7#32, [9]⟩ = .ok (.crcInit .image) := by decide

theorem test_decode_update_page :
    decode (Request.ofSel 0b00100#5 0#32 [0x04, 0x03, 0x02, 0x01]) =
      .ok (.crcUpdate .page [0x04, 0x03, 0x02, 0x01]) := by decide

theorem test_decode_digest_image : decode (Request.ofSel 0b00111#5 0#32 []) = .ok (.crcDigest .image) := by
  decide

theorem test_decode_encode_acc_ignored :
    decode (Request.ofSel 0b10001#5 0xB0#32 [0x07]) = .ok (.fcEncode 0xB0#32 [0x07]) := by decide

theorem test_decode_decode : decode (Request.ofSel 0b10010#5 5#32 [0x01]) = .ok (.fcDecode [0x01]) := by
  decide

theorem test_decode_reserved : decode (Request.ofSel 0b00000#5 0#32 []) = .error (.reservedOp 0#4) := by
  decide

theorem test_table_words :
    [0x02, 0x03, 0x04, 0x06, 0x10, 0x12, 0x08].map (decodeTableWord 8) =
      [some (.crcInit .page), some (.crcInit .image), some (.crcUpdate .page []), some (.crcDigest .page),
        some (.fcEncode 0#32 []), some (.fcDecode []), none] := by decide +kernel

theorem test_fetch_word :
    after (step (State.reset.withFetchWord 8 0x07)) =
      some { State.reset with responses := [.ok (.digest [0xFF, 0xFF, 0xFF, 0xFF])] } := by decide +kernel

/-! ### The CRC unit -/

theorem test_VB_bit_steps :
    [crcStepBit 0xFFFFFFFF#32 false, crcStepBit 0xFFFFFFFF#32 true, crcStepBit 0#32 true,
      crcStepBit 0x80000000#32 true, crcStepBit 0x80000000#32 false, crcStepBit 0x40000000#32 false] =
      [0xFB3EE249#32, 0xFFFFFFFE#32, 0x04C11DB7#32, 0#32, 0x04C11DB7#32, 0x80000000#32] := by decide +kernel

theorem test_VY_byte_steps :
    [crcStepByte 0xFFFFFFFF#32 0x01#8, crcStepByte 0xFFFFFFFF#32 0x80#8, crcStepByte 0x80000000#32 0x00#8,
      crcStepByte 0x12345678#32 0xAB#8] = [0x4AC9A203#32, 0x27045F5A#32, 0x690CE0EE#32, 0xABA10571#32] := by
  decide +kernel

theorem test_VA19_init :
    after (exec (.crcInit .page) (st 0xAAAAAAAA#32 0x4E08BFB4#32 [])) =
      some ⟨0xFFFFFFFF#32, 0x4E08BFB4#32, [], [.ok .none]⟩ := by decide +kernel

theorem test_VA18_update_image :
    after (exec (.crcUpdate .image [0x00]) (st 0xAAAAAAAA#32 0xFFFFFFFF#32 [])) =
      some ⟨0xAAAAAAAA#32, 0x4E08BFB4#32, [], [.ok .none]⟩ := by decide +kernel

theorem test_VA8_update_order :
    after (exec (.crcUpdate .page [0x04, 0x03, 0x02, 0x01]) State.reset) =
      some ⟨0x1DABE74F#32, 0xFFFFFFFF#32, [], [.ok .none]⟩ := by decide +kernel

theorem test_VA14_digest :
    after (exec (.crcDigest .page) (st 0xC704DD7B#32 1#32 [])) =
      some ⟨0xC704DD7B#32, 1#32, [], [.ok (.digest [0xC7, 0x04, 0xDD, 0x7B])]⟩ := by decide +kernel

/-! ### The codec unit -/

theorem test_VF3_encode :
    after (exec (.fcEncode 0x00123456#32 [0xAA, 0xBB, 0xCC]) (st 1#32 2#32 [])) =
      some ⟨1#32, 2#32, [], [.ok (.env
        [0x00, 0x24, 0x00, 0x80, 0, 0, 0, 0, 0, 0, 0, 0, 0, 0, 0, 0, 0, 0, 0, 0, 0, 0x03, 0, 0,
          0x00, 0x12, 0x34, 0x56, 0xAA, 0xBB, 0xCC, 0, 0, 0, 0, 0])]⟩ := by decide +kernel

theorem test_VF7_encode_9_bytes :
    after (exec (.fcEncode 0xB0#32 (zeros 9)) (st 1#32 2#32 [])) =
      some ⟨1#32, 2#32, [], [.err .invalidData]⟩ := by decide +kernel

theorem test_VF10_decode_dlc_9 :
    after (exec (.fcDecode envF10) (st 1#32 2#32 [])) =
      some ⟨1#32, 2#32, [], [.ok (.frame ⟨0xB1#32, 9#8, 8#4,
        [0x07, 0x01, 0x00, 0x11, 0x22, 0x33, 0x44, 0x55]⟩)]⟩ := by decide +kernel

theorem test_VF13_decode_35_bytes :
    after (exec (.fcDecode (envF11.take 35)) (st 1#32 2#32 [])) =
      some ⟨1#32, 2#32, [], [.err .malformedEnvelope]⟩ := by decide +kernel

theorem test_VF12_fixed_view :
    (decodeEnv (((envF11.set 29 0x02).set 30 0x00).set 31 0xEE)).data8 = [0x07, 0x02, 0, 0, 0, 0, 0, 0] := by
  decide +kernel

/-! ### Requests through the step -/

theorem test_VE5_reserved_first :
    after (step (st 1#32 2#32 [.request ⟨0b1111#4, 0#1, 0#32, zeros 9⟩])) =
      some ⟨1#32, 2#32, [], [.err .illegalRequest]⟩ := by decide +kernel

theorem test_VE6_unused_fields :
    after (step (st 0xC704DD7B#32 2#32 [.request reqE6])) =
      some ⟨0xC704DD7B#32, 2#32, [], [.ok (.digest [0xC7, 0x04, 0xDD, 0x7B])]⟩ := by decide +kernel

theorem test_status_codes :
    [Response.status (.ok .none), Response.status (.err .invalidData), Response.status (.err .malformedEnvelope),
      Response.status (.err .illegalRequest)] = [0b00#2, 0b01#2, 0b10#2, 0b11#2] := by decide

theorem test_written_forms :
    instrText (.crcUpdate .page [0x04, 0xAB]) = "CRC.UPDATE 0, 04 AB" ∧
    instrText (.fcEncode 0xB0#32 []) = "FC.ENCODE 0xB0," := by decide +kernel

/-! ### The surrounding data formats -/

theorem test_VP4_digest_command :
    cmdData 0x07#8 Cmd.wpage.code 0#16 [0x8B, 0x0A, 0x52, 0x08] =
      [0x07, 0x02, 0x00, 0x00, 0x08, 0x52, 0x0A, 0x8B] := by decide +kernel

theorem test_VP6_response :
    (isResponse (decodeEnv envF11) 0x07#8 1#8, resultOf (decodeEnv envF11),
      isResponse (decodeEnv envF11) 0x07#8 2#8, isResponse (decodeEnv envF11) 0x08#8 1#8) =
      (true, 1#8, false, false) := by decide +kernel

/-- V-P10: a dlc of 2 is no response. -/
theorem test_VP10_short : isResponse ⟨0xB1#32, 2#8, 2#4, [0x07, 0x01]⟩ 0x07#8 1#8 = false := by decide +kernel

/-- R141: data longer than 8 bytes is `InvalidData`, and nothing is sent. -/
theorem test_R141_invalid_data :
    (sendCommand 0x07#8 .wbuf 0 (zeros 5) ⟨State.reset, [], [], []⟩).1 = some (.invalidData .wbuf) ∧
    (sendCommand 0x07#8 .wbuf 0 (zeros 5) ⟨State.reset, [], [], []⟩).2.sent = [] := by decide +kernel

/-! ### Witnesses: the hypotheses of the obligations can be met -/

theorem witness_reset_event : (State.powerUp.present .reset).pending = .reset :: [] := rfl

theorem witness_payload_lengths :
    (Request.mk 0b1000#4 0#1 0xB0#32 (zeros 9)).payload.length ≤ 37 ∧
    (Request.mk 0b1001#4 0#1 0#32 (zeros 37)).payload.length ≤ 37 := by decide +kernel

/-- The payload lengths of the last clause of `SideEffectsAndIdempotency`, at its two ends. -/
theorem witness_update_lengths : ([0x00] : List Byte) ≠ [] ∧ (zeros 37) ≠ [] ∧ (zeros 37).length ≤ 37 := by
  decide +kernel

theorem witness_two_inits :
    (st 1#32 2#32 [.request (Request.ofSel 0b00010#5 3#32 [4]), .request (Request.ofSel 0b00011#5 5#32 [6])]).pending
      = .request (Request.ofSel 0b00010#5 3#32 [4]) :: .request (Request.ofSel 0b00011#5 5#32 [6]) :: [] := rfl

theorem witness_step_idle : State.reset.pending = [] := rfl

theorem witness_step_decoded : (st 1#32 2#32 [.request reqE6]).pending = .request reqE6 :: [] ∧
    decode reqE6 = .ok (.crcDigest .page) := by decide +kernel

theorem witness_step_reserved :
    (st 1#32 2#32 [.request ⟨0b1111#4, 0#1, 0#32, []⟩]).pending = .request ⟨0b1111#4, 0#1, 0#32, []⟩ :: [] ∧
    decode ⟨0b1111#4, 0#1, 0#32, []⟩ = .error (.reservedOp 0b1111#4) := by decide +kernel

theorem witness_used_fields_differ :
    AgreeOnUsedFields reqE6 ⟨0b0011#4, 0#1, 0#32, []⟩ ∧ reqE6 ≠ ⟨0b0011#4, 0#1, 0#32, []⟩ := by
  unfold AgreeOnUsedFields
  decide +kernel

theorem witness_used_fields_encode :
    AgreeOnUsedFields ⟨0b1000#4, 1#1, 0xB0#32, [7]⟩ ⟨0b1000#4, 0#1, 0xB0#32, [7]⟩ := by
  unfold AgreeOnUsedFields
  decide +kernel

theorem witness_used_fields_reserved : AgreeOnUsedFields ⟨0#4, 1#1, 5#32, [7]⟩ ⟨0#4, 0#1, 6#32, []⟩ := by
  unfold AgreeOnUsedFields
  decide +kernel

theorem witness_cuts (cuts : List (List Byte)) :
    (st 1#32 2#32 (cuts.map (fun c => .request (encode (.crcUpdate .image c))))).pending =
      cuts.map (fun c => .request (encode (.crcUpdate .image c))) := rfl

theorem witness_zero_register : (st 0#32 5#32 []).crc .page = 0#32 := rfl

theorem witness_digest_then_continue :
    (st 1#32 2#32 [.request (encode (.crcUpdate .page [1])), .request (encode (.crcDigest .page)),
      .request (encode (.crcUpdate .page [])), .request (encode (.crcDigest .page))]).pending =
      [.request (encode (.crcUpdate .page [1])), .request (encode (.crcDigest .page)),
        .request (encode (.crcUpdate .page [])), .request (encode (.crcDigest .page))] := rfl

/-- Data lengths 0 and 8, and 9, the smallest that fails (R111). -/
theorem witness_data_lengths : ([] : List Byte).length ≤ 8 ∧ (zeros 8).length ≤ 8 ∧ 9 ≤ (zeros 9).length := by
  decide +kernel

/-- Envelope lengths 36, and 0, 35, 37 beside it (R114). -/
theorem witness_env_lengths :
    envF11.length = 36 ∧ envF10.length = 36 ∧ ([] : List Byte).length ≠ 36 ∧ (envF11.take 35).length ≠ 36 ∧
    (envF11 ++ [0]).length ≠ 36 := by decide +kernel

theorem witness_invalid_data :
    exec (.fcEncode 0xB0#32 (zeros 9)) State.reset = .next (State.reset.respond (.err .invalidData)) ∧
    (State.reset.respond (.err .invalidData)).responses = State.reset.responses ++ [.err .invalidData] :=
  ⟨rfl, rfl⟩

theorem witness_malformed :
    exec (.fcDecode []) State.reset = .next (State.reset.respond (.err .malformedEnvelope)) ∧
    (State.reset.respond (.err .malformedEnvelope)).responses =
      State.reset.responses ++ [.err .malformedEnvelope] := ⟨rfl, rfl⟩

theorem witness_ignored_offsets : 0 ∈ unnamedOffsets ∧ 20 ∈ unnamedOffsets ∧ 23 ∈ unnamedOffsets ∧
    21 ∉ unnamedOffsets ∧ 24 ∉ unnamedOffsets := by decide +kernel

/-- Two envelopes that differ at offset 0 and beyond the data, and agree where decode reads. -/
theorem witness_same_fields_read :
    ∀ k, k < 36 → (k = 21 ∨ (24 ≤ k ∧ k ≤ 27) ∨ (28 ≤ k ∧ k < 28 + min (byteAt envF11 21).toNat 8)) →
      byteAt envF11 k = byteAt ((envF11.set 0 0x99).set 31 0xEE) k := by decide +kernel

/-- The dlc cases of decode then encode meet at 8 and 9. -/
theorem witness_dlc_cases : (byteAt (envF10.set 21 0x08) 21).toNat ≤ 8 ∧ 8 < (byteAt envF10 21).toNat := by
  decide +kernel

theorem witness_reserved_and_assigned : 0b1111#4 ∈ reservedOps ∧ 0b0001#4 ∉ reservedOps := by decide +kernel

/-- One step that raises: the witness of the three statements about errors. -/
theorem witness_error_step :
    (st 1#32 2#32 [.request ⟨0#4, 0#1, 0#32, []⟩, .reset]).pending = .request ⟨0#4, 0#1, 0#32, []⟩ :: [.reset] ∧
    step (st 1#32 2#32 [.request ⟨0#4, 0#1, 0#32, []⟩, .reset]) =
      .next ⟨1#32, 2#32, [.reset], [.err .illegalRequest]⟩ ∧
    ([.err .illegalRequest] : List Response) = [] ++ [.err .illegalRequest] := ⟨rfl, rfl, rfl⟩

theorem witness_register_written :
    step (st 1#32 2#32 [.request (encode (.crcInit .page))]) = .next ⟨0xFFFFFFFF#32, 2#32, [], [.ok .none]⟩ ∧
    (⟨0xFFFFFFFF#32, 2#32, [], [.ok .none]⟩ : State).crc .page ≠ (st 1#32 2#32 []).crc .page :=
  ⟨rfl, by decide⟩

theorem witness_never_initialised :
    ∀ e ∈ [Event.request (encode (.crcUpdate .image [1])), .request (encode (.crcInit .page)),
      .request (encode (.crcDigest .image))], e.inits .image = false := by decide +kernel

theorem witness_other_differs :
    (st 1#32 2#32 [.request (encode (.crcDigest .image))]).pending =
      (st 9#32 2#32 [.request (encode (.crcDigest .image))]).pending ∧
    (st 1#32 2#32 [.request (encode (.crcDigest .image))]).responses =
      (st 9#32 2#32 [.request (encode (.crcDigest .image))]).responses ∧
    (st 1#32 2#32 [.request (encode (.crcDigest .image))]).crc .image =
      (st 9#32 2#32 [.request (encode (.crcDigest .image))]).crc .image ∧
    ∀ r, Event.request r ∈ [Event.request (encode (.crcDigest .image))] →
      decode r ≠ .ok (.crcDigest Acc.image.other) := by
  refine ⟨rfl, rfl, rfl, ?_⟩
  intro r hr
  simp only [List.mem_singleton, Event.request.injEq] at hr
  subst hr
  decide

/-- A shaped state with a response, and a step from it. -/
theorem witness_shaped_step :
    (⟨1#32, 2#32, [.reset], [.ok (.digest [1, 2, 3, 4])]⟩ : State).Shaped ∧
    step ⟨1#32, 2#32, [.reset], [.ok (.digest [1, 2, 3, 4])]⟩ =
      .next ⟨0xFFFFFFFF#32, 0xFFFFFFFF#32, [], [.ok (.digest [1, 2, 3, 4])]⟩ :=
  ⟨by simp [State.Shaped, Response.WellShaped], rfl⟩

theorem witness_par2 : ([0x8B, 0x0A, 0x52, 0x08] : List Byte).length = 4 := rfl

theorem witness_one_page : (zeros 1024).length % 1024 = 0 ∧ 0 < pageCount (zeros 1024) := by
  simp [pageCount, pageSize]

theorem witness_fresh_image_accumulator :
    (⟨State.reset, [], [], []⟩ : Session).block.crc .image = 0xFFFFFFFF#32 := rfl

/-- A run of one page that ends in Done. -/
theorem witness_run_done :
    (runProgrammer 0x07#8 (zeros 1024) ⟨State.reset, [],
      List.replicate 256 [encodeEnv responseId [0x07, 0x01, 0x00]] ++
        [[encodeEnv responseId [0x07, 0x02, 0x00]], [encodeEnv responseId [0x07, 0x03, 0x00]]], []⟩).1 = .done := by
  refine runProgrammer_one_page (d1 := [encodeEnv responseId [0x07, 0x01, 0x00]]) ?_ ?_ ?_ ?_ ?_ rfl
  · simp [pageCount, pageSize]
  · intro word hw
    simp only [pageWords, List.mem_map, List.mem_range] at hw
    obtain ⟨w, hlt, rfl⟩ := hw
    simp only [imageWord, slice_length, zeros_length, pageSize, wordSize, wordsPerPage] at hlt ⊢
    omega
  all_goals
    simp only [Accepted, encodeEnv_length, if_true]
    decide +kernel

/-- A run that aborts at its first command (S10): the result of the first `WBUF` is 1. -/
theorem witness_run_aborted :
    (runProgrammer 0x07#8 (zeros 1024)
      ⟨State.reset, [], [[encodeEnv responseId [0x07, 0x01, 0x01]]], []⟩).1 =
      .aborted (.writeBufferFailed 0 0 0x01#8) := by decide +kernel

end Sys2Proof.Tests
end

section
/-! The codec unit answers from its operands alone: each codec operation is `State.respond` of a response
that does not mention the state (10_state.md R24, 41_framecodec.md R111, R114). -/

namespace Sys2Proof.Machine

/-- The response of `FC.ENCODE id, data` (R111). -/
def encodeResponse (id : Word) (data : List Byte) : Response :=
  if data.length > Config.maxDlc then .err .invalidData else .ok (.env (encodeEnv id data))

/-- The response of `FC.DECODE env` (R114). -/
def decodeResponse (env : List Byte) : Response :=
  if env.length ≠ Config.envLen then .err .malformedEnvelope else .ok (.frame (decodeEnv env))

theorem exec_fcEncode (id : Word) (data : List Byte) (s : State) :
    exec (.fcEncode id data) s = .next (s.respond (encodeResponse id data)) := by
  by_cases h : data.length > Config.maxDlc
  · simp [exec, execFcEncode, encodeResponse, raiseError, h]
  · simp [exec, execFcEncode, encodeResponse, complete, h]

theorem exec_fcDecode (env : List Byte) (s : State) :
    exec (.fcDecode env) s = .next (s.respond (decodeResponse env)) := by
  by_cases h : env.length = Config.envLen
  · simp [exec, execFcDecode, decodeResponse, complete, h]
  · simp [exec, execFcDecode, decodeResponse, raiseError, h]

/-- Settles O37: the responses named above are the same at every state. -/
theorem codecHasNoState : Obligations.CodecHasNoState :=
  ⟨fun id data => ⟨encodeResponse id data, exec_fcEncode id data⟩,
    fun env => ⟨decodeResponse env, exec_fcDecode env⟩⟩

end Sys2Proof.Machine
end

section
/-! `CRC.DIGEST` answers the register's bytes, most significant first, and does nothing else
(20_memory.md R44). -/

namespace Sys2Proof.Machine

theorem exec_crcDigest (a : Acc) (s : State) :
    exec (.crcDigest a) s = .next (complete (.digest (be32 (s.crc a))) s) := rfl

/-- The byte of a register from bit `k` up, as a number. -/
theorem extractByte_toNat (v : Word) (k : Nat) :
    (v.extractLsb' k 8).toNat = v.toNat / 2 ^ k % 2 ^ 8 := by
  rw [BitVec.extractLsb'_toNat, Nat.shiftRight_eq_div_pow]

/-- Nothing of a register lies above its top byte, so there the remainder falls away. -/
theorem extractTopByte_toNat (v : Word) : (v.extractLsb' 24 8).toNat = v.toNat / 2 ^ 24 := by
  have hv := v.isLt
  rw [extractByte_toNat, Nat.mod_eq_of_lt (by omega)]

/-- Settles O14: the four bytes are those of `be32`, each read off as a number above. -/
theorem crcDigestIsBigEndian : Obligations.CrcDigestIsBigEndian := by
  intro a s
  have hlast : ((s.crc a).extractLsb' 0 8).toNat = (s.crc a).toNat % 2 ^ 8 := by
    rw [extractByte_toNat, pow_zero, Nat.div_one]
  exact ⟨_, _, _, _, _, exec_crcDigest a s, complete_responses s _, rfl, extractTopByte_toNat _,
    extractByte_toNat _ 16, extractByte_toNat _ 8, hlast, fun b => complete_crc s b _,
    complete_pending s _⟩

end Sys2Proof.Machine
end

section
/-! The envelope offset by offset: what `FC.ENCODE` writes at each one, and which ones `FC.DECODE` does not
read (30_encoding.md R65 to R70, 20_memory.md R42). -/

namespace Sys2Proof.Machine

theorem encodeResponse_of_length_le {data : List Byte} (id : Word) (h : data.length ≤ 8) :
    encodeResponse id data = .ok (.env (encodeEnv id data)) :=
  if_neg (Nat.not_lt.mpr h)

theorem decodeResponse_of_length_eq {env : List Byte} (h : env.length = 36) :
    decodeResponse env = .ok (.frame (decodeEnv env)) :=
  if_neg (not_not_intro h)

/-- The byte of an encoded envelope at any offset: data, id, dlc and the two markers over zeros (R110). -/
theorem byteAt_encodeEnv {data : List Byte} (id : Word) (h : data.length ≤ 8) (k : Nat) :
    byteAt (encodeEnv id data) k =
      if 28 ≤ k ∧ k < 28 + data.length then byteAt data (k - 28)
      else if 24 ≤ k ∧ k < 28 then byteAt (be32 id) (k - 24)
      else if k = 21 then dlcOfData data
      else if k = 3 then Config.flagByte
      else if k = 1 then Config.lengthMarker
      else 0#8 := by
  rw [encodeEnv, byteAt_putBytes _ _ _ _ (by simp [Config.envLen]; omega),
    byteAt_putBytes _ _ _ _ (by simp [Config.envLen])]
  simp [byteAt_set, Config.envLen, eq_comm (b := k)]

/-- Below the id only the dlc and the two markers are written. -/
theorem byteAt_encodeEnv_of_lt {data : List Byte} (id : Word) (h : data.length ≤ 8) {k : Nat} (hk : k < 24) :
    byteAt (encodeEnv id data) k =
      if k = 21 then dlcOfData data else if k = 3 then Config.flagByte
      else if k = 1 then Config.lengthMarker else 0#8 := by
  rw [byteAt_encodeEnv id h, if_neg (by omega), if_neg (by omega)]

/-- The dlc byte does not wrap: a legal data length fits it (R72). -/
theorem dlcOfData_toNat {data : List Byte} (h : data.length ≤ 8) : (dlcOfData data).toNat = data.length := by
  rw [dlcOfData, BitVec.toNat_ofNat, Nat.mod_eq_of_lt (by omega)]

/-- The unnamed offsets are those below the id that are neither a marker nor the dlc. -/
theorem mem_unnamedOffsets (k : Nat) : k ∈ unnamedOffsets ↔ k < 24 ∧ k ≠ 1 ∧ k ≠ 3 ∧ k ≠ 21 := by
  simp only [unnamedOffsets, List.mem_append, List.mem_cons, List.mem_range'_1, List.not_mem_nil, or_false]
  omega

/-- A slice does not see a write before it. -/
theorem slice_set_of_lt (s : List Byte) (b : Byte) {i a : Nat} (c : Nat) (h : i < a) :
    slice (s.set i b) a c = slice s a c := by
  rw [slice, slice, List.drop_set_of_lt h]

/-- Below the id, decoding reads the dlc and nothing else (R42). -/
theorem decodeEnv_set_of_lt (env : List Byte) (b : Byte) {k : Nat} (hk : k < 24) (hdlc : k ≠ 21) :
    decodeEnv (env.set k b) = decodeEnv env := by
  have hread : ∀ j, k ≠ j → byteAt (env.set k b) j = byteAt env j := fun j hj => by
    rw [byteAt_set, if_neg (fun h => hj h.1)]
  have hid : idOfEnv (env.set k b) = idOfEnv env := by
    simp only [idOfEnv, hread 24 (by omega), hread 25 (by omega), hread 26 (by omega), hread 27 (by omega)]
  simp only [decodeEnv, hread 21 hdlc, hid, slice_set_of_lt env b _ (show k < 28 by omega)]

theorem decodeResponse_set_of_lt (env : List Byte) (b : Byte) {k : Nat} (hk : k < 24) (hdlc : k ≠ 21) :
    decodeResponse (env.set k b) = decodeResponse env := by
  rw [decodeResponse, decodeResponse, List.length_set, decodeEnv_set_of_lt env b hk hdlc]

/-- Settles O30: the offsets named are below the id and are not the dlc, so encode writes a marker or zero
there, and decode reads none of them. -/
theorem markersWrittenAndIgnored : Obligations.MarkersWrittenAndIgnored := by
  refine ⟨rfl, fun id data h => ⟨encodeEnv id data, fun s => ?_, ?_, ?_, fun k hk => ?_⟩,
    fun env k b s hk => ?_⟩
  · rw [exec_fcEncode, encodeResponse_of_length_le id h]
  · exact byteAt_encodeEnv_of_lt id h (by omega)
  · exact byteAt_encodeEnv_of_lt id h (by omega)
  · obtain ⟨hlt, h1, h3, h21⟩ := (mem_unnamedOffsets k).mp hk
    rw [byteAt_encodeEnv_of_lt id h hlt, if_neg h21, if_neg h3, if_neg h1]
  · rw [mem_unnamedOffsets] at hk
    rw [exec_fcDecode, exec_fcDecode, decodeResponse_set_of_lt env b (by omega) (by omega)]

/-- Settles O31: encode writes a length the byte holds, and decode answers the byte as it is. -/
theorem dlcByteIsRaw : Obligations.DlcByteIsRaw := by
  refine ⟨fun id data s h => ⟨encodeEnv id data, ?_, ?_⟩, fun env s h => ⟨decodeEnv env, ?_, rfl⟩⟩
  · rw [exec_fcEncode, encodeResponse_of_length_le id h]
  · rw [byteAt_encodeEnv_of_lt id h (by omega), if_pos rfl, dlcOfData_toNat h]
  · rw [exec_fcDecode, decodeResponse_of_length_eq h]

end Sys2Proof.Machine
end

section
/-! The CAN data of a command byte by byte, and its envelope (45_surrounding_protocol.md R132). -/

namespace Sys2Proof.Machine

/-- The low byte of a 16-bit value, as a number. -/
theorem extractLowByte_toNat (v : BitVec 16) : (v.extractLsb' 0 8).toNat = v.toNat % 256 := by
  rw [BitVec.extractLsb'_toNat, Nat.shiftRight_zero]

/-- Nothing of a 16-bit value lies above its high byte, so there the remainder falls away. -/
theorem extractHighByte_toNat (v : BitVec 16) : (v.extractLsb' 8 8).toNat = v.toNat / 256 := by
  have hv := v.isLt
  rw [BitVec.extractLsb'_toNat, Nat.shiftRight_eq_div_pow, Nat.mod_eq_of_lt (by omega)]

theorem cmdData_four (boardId cmd : Byte) (par1 : BitVec 16) (q0 q1 q2 q3 : Byte) :
    cmdData boardId cmd par1 [q0, q1, q2, q3] =
      [boardId, cmd, par1.extractLsb' 0 8, par1.extractLsb' 8 8, q3, q2, q1, q0] := rfl

/-- A `par1` that fits 16 bits is carried whole. -/
theorem commandEnvelope_toNat (boardId : Byte) (cmd : Cmd) (par1 : BitVec 16) (par2 : List Byte) :
    commandEnvelope boardId cmd par1.toNat par2 =
      encodeEnv commandId (cmdData boardId cmd.code par1 par2) := by
  rw [commandEnvelope, BitVec.ofNat_toNat, BitVec.setWidth_eq]

/-- The dlc byte of a command's envelope: four bytes before `par2` and four of it. -/
theorem byteAt_commandEnvelope_dlc (boardId : Byte) (cmd : Cmd) (par1 : Nat) {par2 : List Byte}
    (h : par2.length = 4) : byteAt (commandEnvelope boardId cmd par1 par2) 21 = 8#8 := by
  have hlen : (cmdData boardId cmd.code (BitVec.ofNat 16 par1) par2).length = 8 := by
    rw [cmdData_length, h]
  rw [commandEnvelope, byteAt_encodeEnv_of_lt _ hlen.le (by omega), if_pos rfl, dlcOfData, hlen]

/-- Settles O51: the layout is `cmdData_four`, with the two bytes of `par1` read off as numbers; the worked
example is an instance of it. -/
theorem commandDataLayout : Obligations.CommandDataLayout := by
  refine ⟨fun boardId cmd par1 q0 q1 q2 q3 => ⟨_, _, cmdData_four boardId cmd par1 q0 q1 q2 q3,
      extractLowByte_toNat par1, extractHighByte_toNat par1⟩,
    fun boardId cmd par1 par2 h => ⟨commandEnvelope_toNat boardId cmd par1 par2,
      byteAt_commandEnvelope_dlc boardId cmd par1.toNat h⟩, ?_⟩
  rw [cmdData_four]
  decide

end Sys2Proof.Machine
end

section
/-! When an operation raises an error, and that the others never do (60_exceptions.md R151, R152, R154). -/

namespace Sys2Proof.Machine

theorem encodeResponse_of_lt_length {data : List Byte} (id : Word) (h : 8 < data.length) :
    encodeResponse id data = .err .invalidData :=
  if_pos h

theorem decodeResponse_of_length_ne {env : List Byte} (h : env.length ≠ 36) :
    decodeResponse env = .err .malformedEnvelope :=
  if_pos h

/-- An operation that appends an error is one of the codec's two, on the wrong length, and the error is
that operation's own; every other way to end appends an `Ok`. -/
theorem exec_err_cases {i : Instr} {s t : State} {k : ErrorKind} (h : exec i s = .next t)
    (hk : t.responses = s.responses ++ [.err k]) :
    (∃ id data, i = .fcEncode id data ∧ 8 < data.length ∧ k = .invalidData) ∨
    (∃ env, i = .fcDecode env ∧ env.length ≠ 36 ∧ k = .malformedEnvelope) := by
  obtain ⟨a, -, rfl⟩ | ⟨a, bs, -, rfl⟩ | ⟨a, -, rfl⟩ | ⟨id, data, hi, hl, rfl⟩ | ⟨id, data, -, -, rfl⟩ |
    ⟨env, hi, hl, rfl⟩ | ⟨env, -, -, rfl⟩ := exec_cases h
  · simp at hk
  · simp at hk
  · simp at hk
  · exact .inl ⟨id, data, hi, hl, by simpa using hk.symm⟩
  · simp at hk
  · exact .inr ⟨env, hi, hl, by simpa using hk.symm⟩
  · simp at hk

/-- Settles O28: the length decides the response of `FC.ENCODE`, and of the two operations that can raise
an error the other raises its own kind. -/
theorem invalidDataExactlyWhenTooLong : Obligations.InvalidDataExactlyWhenTooLong := by
  refine ⟨fun id data h s => ?_, fun id data h => ⟨encodeEnv id data, fun s => ?_⟩, fun i s t h hk => ?_⟩
  · rw [exec_fcEncode, encodeResponse_of_lt_length id h]
  · rw [exec_fcEncode, encodeResponse_of_length_le id h]
  · obtain ⟨id, data, hi, hl, -⟩ | ⟨-, -, -, hkind⟩ := exec_err_cases h hk
    · exact ⟨id, data, hi, hl⟩
    · cases hkind

/-- Settles O29: the length decides the response of `FC.DECODE`, and of the two operations that can raise
an error the other raises its own kind. -/
theorem malformedEnvelopeExactlyWhenNot36 : Obligations.MalformedEnvelopeExactlyWhenNot36 := by
  refine ⟨fun env h s => ?_, fun env h => ⟨decodeEnv env, fun s => ?_⟩, fun i s t h hk => ?_⟩
  · rw [exec_fcDecode, decodeResponse_of_length_ne h]
  · rw [exec_fcDecode, decodeResponse_of_length_eq h]
  · obtain ⟨-, -, -, -, hkind⟩ | ⟨env, hi, hl, -⟩ := exec_err_cases h hk
    · cases hkind
    · exact ⟨env, hi, hl⟩

theorem exec_crcInit (a : Acc) (s : State) :
    exec (.crcInit a) s = .next (complete .none (s.setCrc a Config.crcInit)) := rfl

theorem exec_crcUpdate (a : Acc) (bs : List Byte) (s : State) :
    exec (.crcUpdate a bs) s = .next (complete .none (s.setCrc a (crcUpdate (s.crc a) bs))) := rfl

/-- A register write before completing does not show among the responses. -/
theorem complete_setCrc_responses (x : Value) (s : State) (a : Acc) (v : Word) :
    (complete x (s.setCrc a v)).responses = s.responses ++ [.ok x] := by
  rw [complete_responses, setCrc_responses]

/-- Settles O38: each CRC operation completes, each codec operation on a legal length answers `Ok`, and the
three kinds are the constructors of `ErrorKind`. -/
theorem operationsThatCannotFail : Obligations.OperationsThatCannotFail := by
  refine ⟨fun a s => ⟨_, exec_crcInit a s, complete_setCrc_responses _ s a _⟩,
    fun a bs s => ⟨_, exec_crcUpdate a bs s, complete_setCrc_responses _ s a _⟩,
    fun a s => ⟨_, _, exec_crcDigest a s, complete_responses s _⟩,
    fun id data s h => ⟨_, encodeEnv id data, exec_fcEncode id data s, ?_⟩,
    fun env s h => ⟨_, decodeEnv env, exec_fcDecode env s, ?_⟩, fun k => ?_⟩
  · rw [respond_responses, encodeResponse_of_length_le id h]
  · rw [respond_responses, decodeResponse_of_length_eq h]
  · cases k <;> decide

end Sys2Proof.Machine
end

section
/-! The decoder, one equivalence per operation (30_encoding.md R61, R62, R73, R74): the code decides the
operation, and each operand is the field it names. -/

namespace Sys2Proof.Machine

open Sys2Proof.Claims

@[simp] theorem ofBit_toBit (a : Acc) : Acc.ofBit a.toBit = a := by cases a <;> rfl

@[simp] theorem toBit_ofBit (b : BitVec 1) : (Acc.ofBit b).toBit = b := by
  revert b
  decide

theorem decode_eq_crcInit (r : Request) (a : Acc) :
    decode r = .ok (.crcInit a) ↔ r.op = 0b0001#4 ∧ Acc.ofBit r.acc = a := by
  unfold decode
  split <;> simp_all

theorem decode_eq_crcUpdate (r : Request) (a : Acc) (bs : List Byte) :
    decode r = .ok (.crcUpdate a bs) ↔ r.op = 0b0010#4 ∧ Acc.ofBit r.acc = a ∧ r.payload = bs := by
  unfold decode
  split <;> simp_all

theorem decode_eq_crcDigest (r : Request) (a : Acc) :
    decode r = .ok (.crcDigest a) ↔ r.op = 0b0011#4 ∧ Acc.ofBit r.acc = a := by
  unfold decode
  split <;> simp_all

theorem decode_eq_fcEncode (r : Request) (id : Word) (data : List Byte) :
    decode r = .ok (.fcEncode id data) ↔ r.op = 0b1000#4 ∧ r.id = id ∧ r.payload = data := by
  unfold decode
  split <;> simp_all

theorem decode_eq_fcDecode (r : Request) (env : List Byte) :
    decode r = .ok (.fcDecode env) ↔ r.op = 0b1001#4 ∧ r.payload = env := by
  unfold decode
  split <;> simp_all

/-- The reserved codes are those no operation has. -/
theorem mem_reservedOps (op : BitVec 4) : op ∈ reservedOps ↔
    op ≠ 0b0001#4 ∧ op ≠ 0b0010#4 ∧ op ≠ 0b0011#4 ∧ op ≠ 0b1000#4 ∧ op ≠ 0b1001#4 := by
  revert op
  decide

theorem decode_eq_error (r : Request) (e : DecodeError) :
    decode r = .error e ↔ r.op ∈ reservedOps ∧ e = .reservedOp r.op := by
  rw [mem_reservedOps]
  unfold decode
  split <;> simp_all [eq_comm]

/-- Decoding an encoded operation gives it back. -/
@[simp] theorem decode_encode (i : Instr) : decode (encode i) = .ok i := by
  cases i with
  | crcInit a => exact (decode_eq_crcInit _ _).mpr ⟨rfl, ofBit_toBit a⟩
  | crcUpdate a bs => exact (decode_eq_crcUpdate _ _ _).mpr ⟨rfl, ofBit_toBit a, rfl⟩
  | crcDigest a => exact (decode_eq_crcDigest _ _).mpr ⟨rfl, ofBit_toBit a⟩
  | fcEncode id data => exact (decode_eq_fcEncode _ _ _).mpr ⟨rfl, rfl, rfl⟩
  | fcDecode env => exact (decode_eq_fcDecode _ _).mpr ⟨rfl, rfl⟩

theorem payloadFits_of_length_le {s : List Byte} (h : s.length ≤ 37) : payloadFits s = true :=
  decide_eq_true (h.trans (Nat.le_add_left 37 Config.payloadRoom))

/-- The payload is the only operand whose size is bounded; an operation without one is encoded with none. -/
theorem wellFormed_encode (i : Instr) : (encode i).wellFormed = i.wellFormed := by
  have hnil : payloadFits [] = true := payloadFits_of_length_le (by simp)
  cases i with
  | crcInit a => exact hnil
  | crcDigest a => exact hnil
  | crcUpdate a bs => rfl
  | fcEncode id data => rfl
  | fcDecode env => rfl

/-- Settles O6: the decoder's equivalences read at the encoded request. -/
theorem decodeUndoesEncode : Obligations.DecodeUndoesEncode :=
  fun i => ⟨decode_encode i, wellFormed_encode i⟩

/-- Settles O10: `MAX_PAYLOAD` is at least 37 whatever its open part is. -/
theorem wrongLengthsCanBePresented : Obligations.WrongLengthsCanBePresented :=
  fun _ h => payloadFits_of_length_le h

/-- Settles O5: each selector word is a literal request, so the decoder computes. -/
theorem selectorWordsDecode : Obligations.SelectorWordsDecode := by
  refine ⟨?_, ?_, ?_, ?_, ?_, ?_⟩ <;> decide

/-- Settles O7: per operation, the decoder's equivalence says which fields became operands, and `encode` puts
exactly those back. -/
theorem encodeOfDecodedKeepsUsedFields : Obligations.EncodeOfDecodedKeepsUsedFields := by
  intro r i h
  cases i with
  | crcInit a =>
    obtain ⟨hop, rfl⟩ := (decode_eq_crcInit _ _).mp h
    simp [AgreeOnUsedFields, encode, hop]
  | crcUpdate a bs =>
    obtain ⟨hop, rfl, rfl⟩ := (decode_eq_crcUpdate _ _ _).mp h
    simp [AgreeOnUsedFields, encode, hop]
  | crcDigest a =>
    obtain ⟨hop, rfl⟩ := (decode_eq_crcDigest _ _).mp h
    simp [AgreeOnUsedFields, encode, hop]
  | fcEncode id data =>
    obtain ⟨hop, rfl, rfl⟩ := (decode_eq_fcEncode _ _ _).mp h
    simp [AgreeOnUsedFields, encode, hop]
  | fcDecode env =>
    obtain ⟨hop, rfl⟩ := (decode_eq_fcDecode _ _).mp h
    simp [AgreeOnUsedFields, encode, hop]

/-- Under the table's mask the selector is the code alone: the mask clears `acc` (R60). -/
theorem sel_masked_eq (r : Request) (op : BitVec 4) : r.sel &&& 0x1E#5 = op ++ 0#1 ↔ r.op = op := by
  have hmask : ∀ (op : BitVec 4) (acc : BitVec 1), (op ++ acc) &&& 0x1E#5 = op ++ 0#1 := by decide
  have hinj : ∀ op op' : BitVec 4, op ++ 0#1 = op' ++ 0#1 → op = op' := by decide
  rw [Request.sel, hmask]
  exact ⟨hinj _ _, fun h => by rw [h]⟩

/-- Settles O8: both sides of each row say that the code is the row's. -/
theorem decoderIsTheOpcodeTable : Obligations.DecoderIsTheOpcodeTable := by
  intro r
  refine ⟨(sel_masked_eq r 0b0001#4).trans ?_, (sel_masked_eq r 0b0010#4).trans ?_,
    (sel_masked_eq r 0b0011#4).trans ?_, (sel_masked_eq r 0b1000#4).trans ?_,
    (sel_masked_eq r 0b1001#4).trans ?_⟩
  · simp [decode_eq_crcInit]
  · simp [decode_eq_crcUpdate]
  · simp [decode_eq_crcDigest]
  · simp [decode_eq_fcEncode]
  · simp [decode_eq_fcDecode]

/-- The decoder sees only the fields the operation uses (R62): the two requests take the same arm, and every
field that arm reads agrees. -/
theorem decode_congr {r r' : Request} (h : AgreeOnUsedFields r r') : decode r = decode r' := by
  obtain ⟨hop, hacc, hid, hpay⟩ := h
  unfold decode
  rw [← hop]
  split <;> simp_all

end Sys2Proof.Machine
end

section
/-! The codec's two round trips and the canonical envelopes between them (41_framecodec.md R112, R117, R118). -/

namespace Sys2Proof.Machine

/-- Four bytes fill a word without overflow. -/
theorem fromBe32_toNat (b0 b1 b2 b3 : Byte) : (fromBe32 b0 b1 b2 b3).toNat =
    b0.toNat * 2 ^ 24 + b1.toNat * 2 ^ 16 + b2.toNat * 2 ^ 8 + b3.toNat := by
  have h0 := b0.isLt
  have h1 := b1.isLt
  have h2 := b2.isLt
  have h3 := b3.isLt
  simp only [fromBe32, BitVec.toNat_add, BitVec.toNat_shiftLeft, BitVec.toNat_setWidth, Nat.shiftLeft_eq]
  omega

theorem be32_fromBe32 (b0 b1 b2 b3 : Byte) : be32 (fromBe32 b0 b1 b2 b3) = [b0, b1, b2, b3] := by
  have h0 := b0.isLt
  have h1 := b1.isLt
  have h2 := b2.isLt
  have h3 := b3.isLt
  have hbyte : ∀ k b, (fromBe32 b0 b1 b2 b3).toNat / 2 ^ k % 2 ^ 8 = b.toNat →
      (fromBe32 b0 b1 b2 b3).extractLsb' k 8 = b := fun k b h =>
    BitVec.eq_of_toNat_eq ((extractByte_toNat _ k).trans h)
  rw [be32, hbyte 24 b0 (by rw [fromBe32_toNat]; omega), hbyte 16 b1 (by rw [fromBe32_toNat]; omega),
    hbyte 8 b2 (by rw [fromBe32_toNat]; omega), hbyte 0 b3 (by rw [fromBe32_toNat]; omega)]

/-- The bytes of an assembled id are the envelope's bytes from offset 24 on. -/
theorem byteAt_be32_idOfEnv (env : List Byte) {k : Nat} (h1 : 24 ≤ k) (h2 : k < 28) :
    byteAt (be32 (idOfEnv env)) (k - 24) = byteAt env k := by
  rw [idOfEnv, be32_fromBe32]
  obtain rfl | rfl | rfl | rfl : k = 24 ∨ k = 25 ∨ k = 26 ∨ k = 27 := by omega
  all_goals rfl

theorem payloadLenOfDlc_toNat (dlc : Byte) : (payloadLenOfDlc dlc).toNat = min dlc.toNat 8 := by
  rw [payloadLenOfDlc, BitVec.toNat_ofNat, Config.maxDlc, Nat.mod_eq_of_lt (by omega)]

@[simp] theorem decodeEnv_dlc (env : List Byte) : (decodeEnv env).dlc = byteAt env 21 := rfl

@[simp] theorem decodeEnv_id (env : List Byte) : (decodeEnv env).id = idOfEnv env := rfl

theorem decodeEnv_payloadLen (env : List Byte) :
    (decodeEnv env).payloadLen.toNat = min (byteAt env 21).toNat 8 := payloadLenOfDlc_toNat _

theorem decodeEnv_data (env : List Byte) :
    (decodeEnv env).data = slice env 28 (28 + min (byteAt env 21).toNat 8) := by
  rw [← decodeEnv_payloadLen]
  rfl

/-- The eight data offsets of an envelope hold every payload the dlc can announce. -/
theorem decodeEnv_data_length {env : List Byte} (h : env.length = 36) :
    (decodeEnv env).data.length = min (byteAt env 21).toNat 8 := by
  rw [decodeEnv_data, slice_length]
  omega

theorem byteAt_decodeEnv_data (env : List Byte) {k : Nat} (h : k < min (byteAt env 21).toNat 8) :
    byteAt (decodeEnv env).data k = byteAt env (28 + k) := by
  rw [decodeEnv_data, byteAt_slice env 28 _ k (by omega)]

theorem byteAt_encodeEnv_id {data : List Byte} (id : Word) (h : data.length ≤ 8) {k : Nat} (h1 : 24 ≤ k)
    (h2 : k < 28) : byteAt (encodeEnv id data) k = byteAt (be32 id) (k - 24) := by
  rw [byteAt_encodeEnv id h, if_neg (by omega), if_pos ⟨h1, h2⟩]

/-- Beyond the data an encoded envelope is zero. -/
theorem byteAt_encodeEnv_tail {data : List Byte} (id : Word) (h : data.length ≤ 8) {k : Nat}
    (hk : 28 + data.length ≤ k) : byteAt (encodeEnv id data) k = 0#8 := by
  rw [byteAt_encodeEnv id h, if_neg (by omega), if_neg (by omega), if_neg (by omega), if_neg (by omega),
    if_neg (by omega)]

/-- The id of an encoded envelope is the one encoded. -/
theorem idOfEnv_encodeEnv {data : List Byte} (id : Word) (h : data.length ≤ 8) :
    idOfEnv (encodeEnv id data) = id := by
  have hread : ∀ k, k < 4 → byteAt (encodeEnv id data) (24 + k) = byteAt (be32 id) k := fun k hk => by
    rw [byteAt_encodeEnv_id id h (by omega) (by omega), Nat.add_sub_cancel_left]
  rw [idOfEnv, hread 0 (by omega), hread 1 (by omega), hread 2 (by omega), hread 3 (by omega)]
  exact fromBe32_be32 id

theorem byteAt_encodeEnv_dlc {data : List Byte} (id : Word) (h : data.length ≤ 8) :
    byteAt (encodeEnv id data) 21 = dlcOfData data := by
  rw [byteAt_encodeEnv_of_lt id h (by omega), if_pos rfl]

/-- The data of an encoded envelope, decoded, are the data encoded. -/
theorem decodeEnv_encodeEnv_data {data : List Byte} (id : Word) (h : data.length ≤ 8) :
    (decodeEnv (encodeEnv id data)).data = data := by
  have hmin : min (byteAt (encodeEnv id data) 21).toNat 8 = data.length := by
    rw [byteAt_encodeEnv_dlc id h, dlcOfData_toNat h]
    omega
  have hlen : (decodeEnv (encodeEnv id data)).data.length = data.length := by
    rw [decodeEnv_data_length (encodeEnv_length id data), hmin]
  refine bytes_ext hlen fun i hi => ?_
  rw [byteAt_decodeEnv_data _ (by omega), byteAt_encodeEnv id h, if_pos (by omega),
    Nat.add_sub_cancel_left]

/-- Settles O34: the decoded fields of an encoded envelope are the operands and their length. -/
theorem decodeOfEncodedFrame : Obligations.DecodeOfEncodedFrame := by
  intro id data s h
  refine ⟨encodeEnv id data, decodeEnv (encodeEnv id data), ?_, fun u => ?_, idOfEnv_encodeEnv id h, ?_, ?_,
    decodeEnv_encodeEnv_data id h⟩
  · rw [exec_fcEncode, encodeResponse_of_length_le id h]
  · rw [exec_fcDecode, decodeResponse_of_length_eq (encodeEnv_length id data)]
  · rw [decodeEnv_dlc, byteAt_encodeEnv_dlc id h, dlcOfData_toNat h]
  · rw [decodeEnv_payloadLen, byteAt_encodeEnv_dlc id h, dlcOfData_toNat h, min_eq_left h]

/-- Every encoding is canonical. -/
theorem canonical_encodeEnv {data : List Byte} (id : Word) (h : data.length ≤ 8) :
    Canonical (encodeEnv id data) := by
  have hdlc : (byteAt (encodeEnv id data) 21).toNat = data.length := by
    rw [byteAt_encodeEnv_dlc id h, dlcOfData_toNat h]
  refine ⟨encodeEnv_length id data, byteAt_encodeEnv_of_lt id h (by omega),
    byteAt_encodeEnv_of_lt id h (by omega), hdlc ▸ h, fun k hk => ?_, fun k h1 _ => ?_⟩
  · obtain ⟨hlt, hne1, hne3, hne21⟩ := (mem_unnamedOffsets k).mp hk
    rw [byteAt_encodeEnv_of_lt id h hlt, if_neg hne21, if_neg hne3, if_neg hne1]
  · exact byteAt_encodeEnv_tail id h (hdlc ▸ h1)

/-- An envelope decoded and encoded again. -/
def reencode (env : List Byte) : List Byte := encodeEnv (decodeEnv env).id (decodeEnv env).data

theorem decodeEnv_data_length_le {env : List Byte} (h : env.length = 36) :
    (decodeEnv env).data.length ≤ 8 := by
  rw [decodeEnv_data_length h]
  exact min_le_right _ _

/-- Below the id, re-encoding keeps the dlc, cut to 8, restores the markers and writes zeros. -/
theorem byteAt_reencode_of_lt {env : List Byte} (h : env.length = 36) {k : Nat} (hk : k < 24) :
    byteAt (reencode env) k =
      if k = 21 then BitVec.ofNat 8 (min (byteAt env 21).toNat 8) else if k = 3 then 0x80#8
      else if k = 1 then 0x24#8 else 0#8 := by
  rw [reencode, byteAt_encodeEnv_of_lt _ (decodeEnv_data_length_le h) hk, dlcOfData, decodeEnv_data_length h]
  rfl

/-- Re-encoding keeps the id and the data. -/
theorem byteAt_reencode_frame {env : List Byte} (h : env.length = 36) {k : Nat} (h1 : 24 ≤ k)
    (h2 : k < 28 + min (byteAt env 21).toNat 8) : byteAt (reencode env) k = byteAt env k := by
  rw [reencode, byteAt_encodeEnv _ (decodeEnv_data_length_le h), decodeEnv_data_length h]
  by_cases hdata : 28 ≤ k
  · rw [if_pos ⟨hdata, h2⟩, byteAt_decodeEnv_data env (by omega), Nat.add_sub_cancel' hdata]
  · rw [if_neg (by omega), if_pos (by omega), decodeEnv_id, byteAt_be32_idOfEnv env h1 (by omega)]

/-- Re-encoding writes zeros beyond the data. -/
theorem byteAt_reencode_tail {env : List Byte} (h : env.length = 36) {k : Nat}
    (hk : 28 + min (byteAt env 21).toNat 8 ≤ k) : byteAt (reencode env) k = 0#8 :=
  byteAt_encodeEnv_tail _ (decodeEnv_data_length_le h) (by rwa [decodeEnv_data_length h])

/-- Re-encoding an envelope with a legal dlc, offset by offset (R118). -/
theorem byteAt_reencode {env : List Byte} (h : env.length = 36) (hdlc : (byteAt env 21).toNat ≤ 8) (k : Nat) :
    byteAt (reencode env) k =
      if k = 1 then 0x24#8 else if k = 3 then 0x80#8
      else if k ∈ unnamedOffsets then 0#8
      else if 28 + (byteAt env 21).toNat ≤ k then 0#8
      else byteAt env k := by
  have hmin : min (byteAt env 21).toNat 8 = (byteAt env 21).toNat := min_eq_left hdlc
  split_ifs with hk1 hk3 hunnamed htail
  · exact hk1 ▸ byteAt_reencode_of_lt h (by omega)
  · exact hk3 ▸ byteAt_reencode_of_lt h (by omega)
  · obtain ⟨hlt, -, -, hk21⟩ := (mem_unnamedOffsets k).mp hunnamed
    rw [byteAt_reencode_of_lt h hlt, if_neg hk21, if_neg hk3, if_neg hk1]
  · exact byteAt_reencode_tail h (by rwa [hmin])
  · rw [mem_unnamedOffsets] at hunnamed
    by_cases hk21 : k = 21
    · rw [hk21, byteAt_reencode_of_lt h (by omega), if_pos rfl, hmin, BitVec.ofNat_toNat, BitVec.setWidth_eq]
    · exact byteAt_reencode_frame h (by omega) (by omega)

/-- A canonical envelope is its own re-encoding. -/
theorem reencode_of_canonical {env : List Byte} (h : Canonical env) : reencode env = env := by
  obtain ⟨hlen, h1, h3, hdlc, hunnamed, htail⟩ := h
  have hlen' : (reencode env).length = 36 := encodeEnv_length _ _
  refine bytes_ext (hlen'.trans hlen.symm) fun k hk => ?_
  rw [byteAt_reencode hlen hdlc]
  split_ifs with hk1 hk3 hmem hbeyond
  · exact hk1 ▸ h1.symm
  · exact hk3 ▸ h3.symm
  · exact (hunnamed k hmem).symm
  · exact (htail k hbeyond (by omega)).symm
  · rfl

theorem reencode_eq_self_iff {env : List Byte} (h : env.length = 36) : reencode env = env ↔ Canonical env :=
  ⟨fun he => he ▸ canonical_encodeEnv _ (decodeEnv_data_length_le h), reencode_of_canonical⟩

/-- Settles O35: `byteAt_reencode` on the two sides of a dlc of 8, and the fixed points of re-encoding are the
canonical envelopes. -/
theorem encodeOfDecodedFrame : Obligations.EncodeOfDecodedFrame := by
  intro env s h
  have hdata := decodeEnv_data_length_le h
  refine ⟨decodeEnv env, reencode env, ?_, fun u => ?_, encodeEnv_length _ _,
    fun hdlc => ⟨reencode_eq_self_iff h, fun k _ => byteAt_reencode h hdlc k⟩, fun hdlc => ?_⟩
  · rw [exec_fcDecode, decodeResponse_of_length_eq h]
  · rw [exec_fcEncode, encodeResponse_of_length_le _ hdata, reencode]
  · have h21 : byteAt (reencode env) 21 = 8#8 := by
      rw [byteAt_reencode_of_lt h (by omega), if_pos rfl, min_eq_right hdlc.le]
    refine ⟨h21, fun he => ?_⟩
    rw [he] at h21
    simp [h21] at hdlc

/-- The bytes of an id, most significant first, as `BitVec.ofNat` cuts them off. -/
theorem be32_eq_ofNat (id : Word) : be32 id =
    [BitVec.ofNat 8 (id.toNat / 2 ^ 24), BitVec.ofNat 8 (id.toNat / 2 ^ 16), BitVec.ofNat 8 (id.toNat / 2 ^ 8),
      BitVec.ofNat 8 id.toNat] := by
  have hbyte : ∀ k, id.extractLsb' k 8 = BitVec.ofNat 8 (id.toNat / 2 ^ k) := fun k =>
    BitVec.eq_of_toNat_eq (by rw [extractByte_toNat, BitVec.toNat_ofNat])
  have hlast := hbyte 0
  rw [pow_zero, Nat.div_one] at hlast
  rw [be32, hbyte 24, hbyte 16, hbyte 8, hlast]

/-- Settles O27: `byteAt_encodeEnv` offset by offset, with the bytes of the id written out. -/
theorem encodeLaysOutTheEnvelope : Obligations.EncodeLaysOutTheEnvelope := by
  intro id data s h
  refine ⟨encodeEnv id data, ?_, encodeEnv_length id data, fun k hk => ?_⟩
  · rw [exec_fcEncode, encodeResponse_of_length_le id h]
  split_ifs with h1 h3 h21 h24 h25 h26 h27 hdata
  · exact h1 ▸ byteAt_encodeEnv_of_lt id h (by omega)
  · exact h3 ▸ byteAt_encodeEnv_of_lt id h (by omega)
  · exact h21 ▸ byteAt_encodeEnv_of_lt id h (by omega)
  · rw [h24, byteAt_encodeEnv_id id h (by omega) (by omega), be32_eq_ofNat]
    rfl
  · rw [h25, byteAt_encodeEnv_id id h (by omega) (by omega), be32_eq_ofNat]
    rfl
  · rw [h26, byteAt_encodeEnv_id id h (by omega) (by omega), be32_eq_ofNat]
    rfl
  · rw [h27, byteAt_encodeEnv_id id h (by omega) (by omega), be32_eq_ofNat]
    rfl
  · rw [byteAt_encodeEnv id h, if_pos hdata]
  · by_cases hlow : k < 24
    · rw [byteAt_encodeEnv_of_lt id h hlow, if_neg h21, if_neg h3, if_neg h1]
    · exact byteAt_encodeEnv_tail id h (by omega)

/-- Settles O32: every field is read off `decodeEnv`; the id is a sum of four bytes that cannot overflow. -/
theorem decodeReadsTheFrame : Obligations.DecodeReadsTheFrame := by
  intro env s h
  refine ⟨decodeEnv env, ?_, ?_, decodeEnv_dlc env, decodeEnv_payloadLen env, ?_, fun k hk => ?_⟩
  · rw [exec_fcDecode, decodeResponse_of_length_eq h]
  · exact fromBe32_toNat _ _ _ _
  · rw [decodeEnv_data_length h, decodeEnv_payloadLen]
  · exact byteAt_decodeEnv_data env (decodeEnv_payloadLen env ▸ hk)

/-- Settles O33: the id and the dlc are the same reads, and the data are the same bytes of the same count. -/
theorem decodeReadsNothingElse : Obligations.DecodeReadsNothingElse := by
  intro env env' s h h' hagree
  have hdlc : byteAt env 21 = byteAt env' 21 := hagree 21 (.inl rfl)
  have hid : idOfEnv env = idOfEnv env' := by
    simp only [idOfEnv, hagree 24 (by omega), hagree 25 (by omega), hagree 26 (by omega), hagree 27 (by omega)]
  have hdata : (decodeEnv env).data = (decodeEnv env').data := by
    have hlen := decodeEnv_data_length h
    refine bytes_ext (by rw [hlen, decodeEnv_data_length h', hdlc]) fun k hk => ?_
    rw [byteAt_decodeEnv_data env (by omega), byteAt_decodeEnv_data env' (by rw [← hdlc]; omega),
      hagree (28 + k) (by omega)]
  have hframe : decodeEnv env = decodeEnv env' := by
    simp only [decodeEnv, Frame.mk.injEq]
    exact ⟨hid, hdlc, by rw [hdlc], hdata⟩
  rw [exec_fcDecode, exec_fcDecode, decodeResponse_of_length_eq h, decodeResponse_of_length_eq h', hframe]

/-- Settles O36: a canonical envelope is encoded from its decoded frame, and from nothing else, since decoding
an encoding gives the operands back. -/
theorem canonicalEnvelopesAreOneToOne : Obligations.CanonicalEnvelopesAreOneToOne := by
  intro env
  constructor
  · intro h
    refine ⟨((decodeEnv env).id, (decodeEnv env).data),
      ⟨decodeEnv_data_length_le h.1, reencode_of_canonical h⟩, ?_⟩
    rintro ⟨id, data⟩ ⟨hle, rfl⟩
    exact Prod.ext (idOfEnv_encodeEnv id hle).symm (decodeEnv_encodeEnv_data id hle).symm
  · rintro ⟨⟨id, data⟩, ⟨hle, rfl⟩, -⟩
    exact canonical_encodeEnv id hle

end Sys2Proof.Machine
end

section
/-! What serving one event does, said once as a function of the event: the value each register takes and the
responses given. Every step with something pending is that function (20_memory.md R49, R52; 10_state.md R22). -/

namespace Sys2Proof.Machine

open Sys2Proof.Claims

/-- The value an operation leaves in register `a` when it held `v`. -/
def execRegister (a : Acc) (v : Word) : Instr → Word
  | .crcInit a' => if a = a' then Config.crcInit else v
  | .crcUpdate a' bs => if a = a' then crcUpdate v bs else v
  | _ => v

/-- The response of an operation at registers `c`. -/
def execResponse (c : Acc → Word) : Instr → Response
  | .crcInit _ => .ok .none
  | .crcUpdate _ _ => .ok .none
  | .crcDigest a => .ok (.digest (be32 (c a)))
  | .fcEncode id data => encodeResponse id data
  | .fcDecode env => decodeResponse env

/-- The response to a request at registers `c`: a reserved code is refused before anything else (R155). -/
def requestResponse (c : Acc → Word) (r : Request) : Response :=
  match decode r with
  | .ok i => execResponse c i
  | .error _ => .err .illegalRequest

/-- The value an event leaves in register `a` when it held `v`: one step of `crcAfter`. -/
def Event.register (a : Acc) (v : Word) (e : Event) : Word :=
  if e.inits a then Config.crcInit else crcUpdate v (e.fed a)

/-- The responses to an event at registers `c`: one for a request, none for a reset. -/
def Event.responses (c : Acc → Word) : Event → List Response
  | .reset => []
  | .request r => [requestResponse c r]

/-- The state after an event is served. -/
def State.serve (s : State) (e : Event) : State :=
  { crc0 := e.register .page s.crc0, crc1 := e.register .image s.crc1, pending := s.pending,
    responses := s.responses ++ e.responses s.crc }

section
variable (s : State) (e : Event) (a : Acc) (v : Word) (r : Request)

@[simp] theorem serve_pending : (s.serve e).pending = s.pending := rfl
@[simp] theorem serve_responses : (s.serve e).responses = s.responses ++ e.responses s.crc := rfl
@[simp] theorem serve_crc : (s.serve e).crc a = e.register a (s.crc a) := by cases a <;> rfl

@[simp] theorem register_reset : Event.reset.register a v = Config.crcInit := rfl

theorem register_of_decode_error {d : DecodeError} (h : decode r = .error d) :
    (Event.request r).register a v = v := by
  simp [Event.register, Event.inits, Event.fed, h]

theorem register_of_decode_ok {i : Instr} (h : decode r = .ok i) :
    (Event.request r).register a v = execRegister a v i := by
  cases i with
  | crcInit a' => simp [Event.register, Event.inits, Event.fed, h, execRegister, eq_comm (a := a)]
  | crcUpdate a' bs =>
    by_cases ha : a' = a <;> simp [Event.register, Event.inits, Event.fed, h, execRegister, eq_comm (a := a), ha]
  | crcDigest a' => simp [Event.register, Event.inits, Event.fed, h, execRegister]
  | fcEncode id data => simp [Event.register, Event.inits, Event.fed, h, execRegister]
  | fcDecode env => simp [Event.register, Event.inits, Event.fed, h, execRegister]

theorem requestResponse_of_decode_error (c : Acc → Word) {d : DecodeError} (h : decode r = .error d) :
    requestResponse c r = .err .illegalRequest := by
  rw [requestResponse, h]

theorem requestResponse_of_decode_ok (c : Acc → Word) {i : Instr} (h : decode r = .ok i) :
    requestResponse c r = execResponse c i := by
  rw [requestResponse, h]

/-- Every operation completes, with the registers and the response named above. -/
theorem exec_spec (i : Instr) : ∃ t, exec i s = .next t ∧ (∀ a, t.crc a = execRegister a (s.crc a) i) ∧
    t.pending = s.pending ∧ t.responses = s.responses ++ [execResponse s.crc i] := by
  cases i with
  | crcInit a =>
    exact ⟨_, exec_crcInit a s, fun b => by rw [complete_crc, crc_setCrc]; rfl, setCrc_pending s a _,
      complete_setCrc_responses _ s a _⟩
  | crcUpdate a bs =>
    refine ⟨_, exec_crcUpdate a bs s, fun b => ?_, setCrc_pending s a _, complete_setCrc_responses _ s a _⟩
    rw [complete_crc, crc_setCrc, execRegister]
    split
    · next hb => rw [hb]
    · rfl
  | crcDigest a => exact ⟨_, exec_crcDigest a s, fun b => complete_crc s b _, rfl, rfl⟩
  | fcEncode id data => exact ⟨_, exec_fcEncode id data s, fun b => respond_crc s b _, rfl, rfl⟩
  | fcDecode env => exact ⟨_, exec_fcDecode env s, fun b => respond_crc s b _, rfl, rfl⟩

/-- Running an operation is serving any request that decodes to it. -/
theorem exec_eq_serve {i : Instr} (h : decode r = .ok i) : exec i s = .next (s.serve (.request r)) := by
  obtain ⟨t, ht, hcrc, hp, hr⟩ := exec_spec s i
  rw [ht]
  refine congrArg _ (state_ext (fun a => ?_) hp ?_)
  · rw [hcrc, serve_crc, register_of_decode_ok a _ r h]
  · rw [hr, serve_responses, Event.responses, requestResponse_of_decode_ok r _ h]

/-- Refusing a reserved code is serving its request. -/
theorem raiseError_eq_serve {d : DecodeError} (h : decode r = .error d) :
    raiseError .illegalRequest s = s.serve (.request r) :=
  state_ext (fun a => by rw [raiseError_crc, serve_crc, register_of_decode_error a _ r h]) rfl
    (by rw [serve_responses, Event.responses, requestResponse_of_decode_error r _ h, raiseError_responses])

end

section
variable {s : State} {rest : List Event} {r : Request}

theorem step_of_pending_nil (h : s.pending = []) : step s = .next s := by
  rw [step, h, idle]

theorem step_of_pending_reset (h : s.pending = .reset :: rest) :
    step s = .next (hardwareReset (s.withPending rest)) := by
  rw [step, h]

theorem step_of_decode_ok {i : Instr} (h : s.pending = .request r :: rest) (hd : decode r = .ok i) :
    step s = exec i (s.withPending rest) := by
  rw [step, h]
  simp only [hd]

theorem step_of_decode_error {d : DecodeError} (h : s.pending = .request r :: rest) (hd : decode r = .error d) :
    step s = .next (raiseError .illegalRequest (s.withPending rest)) := by
  rw [step, h]
  simp only [hd]

/-- A step with something pending takes the event off and serves it. -/
theorem step_of_pending_cons {e : Event} (h : s.pending = e :: rest) :
    step s = .next ((s.withPending rest).serve e) := by
  cases e with
  | reset =>
    rw [step_of_pending_reset h]
    exact congrArg _ (state_ext (fun a => by simp) rfl (by simp [Event.responses]))
  | request r =>
    cases hd : decode r with
    | ok i => rw [step_of_decode_ok h hd, exec_eq_serve _ r hd]
    | error d => rw [step_of_decode_error h hd, raiseError_eq_serve _ r hd]

end

/-- Everything a step can do, as a function of the event: nothing, or serve the next event. -/
theorem step_serve_cases {s t : State} (h : step s = .next t) :
    (s.pending = [] ∧ t = s) ∨
    (∃ e rest, s.pending = e :: rest ∧ t = (s.withPending rest).serve e) := by
  cases hp : s.pending with
  | nil => exact .inl ⟨rfl, by simpa [step_of_pending_nil hp] using h.symm⟩
  | cons e rest => exact .inr ⟨e, rest, rfl, by simpa [step_of_pending_cons hp] using h.symm⟩

/-- Settles O1: both reset fields hold the initial value. -/
theorem resetLeavesBothRegistersInitial : Obligations.ResetLeavesBothRegistersInitial := by
  intro a
  cases a <;> rfl

/-- Settles O50: after reset no response has been given. -/
theorem resetResponsesAreShaped : Obligations.ResetResponsesAreShaped :=
  fun _ hr => absurd hr List.not_mem_nil

/-- Settles O2: a reset event is served by the hardware reset of the registers. -/
theorem hardwareResetWritesBothRegisters : Obligations.HardwareResetWritesBothRegisters :=
  fun _ _ h => ⟨_, step_of_pending_reset h, fun a => hardwareReset_crc _ a, rfl, rfl⟩

/-- Settles O4: the three equations of a step. -/
theorem stepRunsTheDecodedRequest : Obligations.StepRunsTheDecodedRequest :=
  ⟨fun _ h => step_of_pending_nil h, fun _ _ _ _ h hd => step_of_decode_ok h hd,
    fun _ _ _ _ h hd => step_of_decode_error h hd⟩

/-- Settles O12: `exec_crcInit`, field by field. -/
theorem crcInitWritesInitialValue : Obligations.CrcInitWritesInitialValue := by
  intro a s
  refine ⟨_, exec_crcInit a s, ?_, ?_, setCrc_pending s a _, complete_setCrc_responses _ s a _⟩
  · rw [complete_crc, crc_setCrc_same, Config.crcInit]
  · rw [complete_crc, crc_setCrc_other]

/-- Settles O13: `exec_crcUpdate`, field by field. -/
theorem crcUpdateConsumesBytes : Obligations.CrcUpdateConsumesBytes := by
  intro a bs s
  refine ⟨_, exec_crcUpdate a bs s, ?_, ?_, setCrc_pending s a _, complete_setCrc_responses _ s a _⟩
  · rw [complete_crc, crc_setCrc_same]
  · rw [complete_crc, crc_setCrc_other]

/-- Settles O11: a response is `Ok` or one of three kinds, and the four codes are distinct. -/
theorem statusCodesOfResponses : Obligations.StatusCodesOfResponses := by
  refine ⟨?_, ?_, ?_, ?_⟩
  all_goals
    intro r
    cases r with
    | ok v => simp [Response.status, Response.value]
    | err k => cases k <;> simp [Response.status, Response.value, ErrorKind.status]

/-- Settles O9: a step reads the request through the decoder alone, which does not see the ignored fields. -/
theorem ignoredFieldsChangeNothing : Obligations.IgnoredFieldsChangeNothing := by
  intro s rest r r' h
  have hd := decode_congr h
  cases hr : decode r with
  | ok i => rw [step_of_decode_ok rfl hr, step_of_decode_ok rfl (hd ▸ hr)]; rfl
  | error d => rw [step_of_decode_error rfl hr, step_of_decode_error rfl (hd ▸ hr)]; rfl

/-- Settles O43: with nothing pending a step answers the same state, otherwise it serves an event. -/
theorem everyStepAnswers : Obligations.EveryStepAnswers := by
  intro s
  cases hp : s.pending with
  | nil => exact ⟨s, step_of_pending_nil hp⟩
  | cons e rest => exact ⟨_, step_of_pending_cons hp⟩

/-- A register that an event changes is initialised or fed by it. -/
theorem register_ne_cases {a : Acc} {v : Word} {e : Event} (h : e.register a v ≠ v) :
    e = .reset ∨ ∃ r, e = .request r ∧
      (decode r = .ok (.crcInit a) ∨ ∃ bytes, decode r = .ok (.crcUpdate a bytes)) := by
  cases e with
  | reset => exact .inl rfl
  | request r =>
    refine .inr ⟨r, rfl, ?_⟩
    cases hd : decode r with
    | error d => exact absurd (register_of_decode_error a v r hd) h
    | ok i =>
      rw [register_of_decode_ok a v r hd] at h
      cases i with
      | crcInit a' =>
        obtain rfl : a = a' := not_not.mp fun hne => h (if_neg hne)
        exact .inl rfl
      | crcUpdate a' bs =>
        obtain rfl : a = a' := not_not.mp fun hne => h (if_neg hne)
        exact .inr ⟨bs, rfl⟩
      | crcDigest a' => exact absurd rfl h
      | fcEncode id data => exact absurd rfl h
      | fcDecode env => exact absurd rfl h

/-- Settles O42: the step served an event, and the register an event changes is one it initialises or feeds. -/
theorem registerWrittenOnlyByItsOperations : Obligations.RegisterWrittenOnlyByItsOperations := by
  intro s t a h hne
  obtain ⟨-, rfl⟩ | ⟨e, rest, hp, rfl⟩ := step_serve_cases h
  · exact absurd rfl hne
  · rw [serve_crc, withPending_crc] at hne
    exact ⟨e, rest, hp, register_ne_cases hne⟩

/-! ### Errors -/

/-- No operation answers `IllegalRequest`: that kind is the decoder's. -/
theorem execResponse_ne_illegalRequest (c : Acc → Word) (i : Instr) :
    execResponse c i ≠ .err .illegalRequest := by
  cases i with
  | crcInit a => simp [execResponse]
  | crcUpdate a bs => simp [execResponse]
  | crcDigest a => simp [execResponse]
  | fcEncode id data =>
    by_cases h : 8 < data.length
    · simp [execResponse, encodeResponse_of_lt_length id h]
    · simp [execResponse, encodeResponse_of_length_le id (not_lt.mp h)]
  | fcDecode env =>
    by_cases h : env.length = 36
    · simp [execResponse, decodeResponse_of_length_eq h]
    · simp [execResponse, decodeResponse_of_length_ne h]

/-- Settles O39: a reserved code does not decode, and any other runs an operation. -/
theorem illegalRequestExactlyReserved : Obligations.IllegalRequestExactlyReserved := by
  intro s r rest hp
  refine ⟨fun hres => step_of_decode_error hp ((decode_eq_error r _).mpr ⟨hres, rfl⟩),
    fun hres t ht hk => ?_⟩
  rw [step_of_pending_cons hp, Host.Outcome.next.injEq] at ht
  cases hd : decode r with
  | error d => exact hres ((decode_eq_error r d).mp hd).1
  | ok i =>
    rw [← ht, serve_responses, Event.responses, requestResponse_of_decode_ok r _ hd] at hk
    exact execResponse_ne_illegalRequest _ i (by simpa using hk)

/-- An operation that answers an error writes no register. -/
theorem execRegister_of_err {c : Acc → Word} {i : Instr} {k : ErrorKind} (h : execResponse c i = .err k)
    (a : Acc) (v : Word) : execRegister a v i = v := by
  cases i with
  | crcInit a' => cases h
  | crcUpdate a' bs => cases h
  | crcDigest a' => cases h
  | fcEncode id data => rfl
  | fcDecode env => rfl

/-- An event answered with an error is a request, and the error is all it leaves (R156). -/
theorem serve_of_err {s : State} {e : Event} {k : ErrorKind} (h : e.responses s.crc = [.err k]) :
    (∃ r, e = .request r) ∧ s.serve e = s.respond (.err k) := by
  cases e with
  | reset => cases h
  | request r =>
    have hk : requestResponse s.crc r = .err k := List.singleton_inj.mp h
    refine ⟨⟨r, rfl⟩, state_ext (fun a => ?_) rfl (by rw [serve_responses, h, respond_responses])⟩
    rw [serve_crc, respond_crc]
    cases hd : decode r with
    | error d => exact register_of_decode_error a _ r hd
    | ok i =>
      rw [requestResponse_of_decode_ok r _ hd] at hk
      rw [register_of_decode_ok a _ r hd, execRegister_of_err hk]

/-- Settles O40: a step that appends an error served an event answered with that error. -/
theorem errorsChangeNothing : Obligations.ErrorsChangeNothing := by
  intro s t k h hk
  obtain ⟨-, rfl⟩ | ⟨e, rest, hp, rfl⟩ := step_serve_cases h
  · simp at hk
  · obtain ⟨⟨r, rfl⟩, hs⟩ := serve_of_err (s := s.withPending rest) (List.append_cancel_left hk)
    exact ⟨r, hp, hs⟩

/-! ### The shape of responses -/

theorem encodeResponse_wellShaped (id : Word) (data : List Byte) : (encodeResponse id data).WellShaped := by
  by_cases h : 8 < data.length
  · rw [encodeResponse_of_lt_length id h]
    trivial
  · rw [encodeResponse_of_length_le id (not_lt.mp h)]
    exact canonical_encodeEnv id (not_lt.mp h)

theorem decodeResponse_wellShaped (env : List Byte) : (decodeResponse env).WellShaped := by
  by_cases h : env.length = 36
  · rw [decodeResponse_of_length_eq h]
    exact ⟨decodeEnv_payloadLen env, by rw [decodeEnv_data_length h, decodeEnv_payloadLen]⟩
  · rw [decodeResponse_of_length_ne h]
    trivial

theorem requestResponse_wellShaped (c : Acc → Word) (r : Request) : (requestResponse c r).WellShaped := by
  cases hd : decode r with
  | error d =>
    rw [requestResponse_of_decode_error r c hd]
    trivial
  | ok i =>
    rw [requestResponse_of_decode_ok r c hd]
    cases i with
    | crcInit a => trivial
    | crcUpdate a bs => trivial
    | crcDigest a => exact be32_length (c a)
    | fcEncode id data => exact encodeResponse_wellShaped id data
    | fcDecode env => exact decodeResponse_wellShaped env

/-- Settles O49: a step appends at most the response to one request. -/
theorem stepsKeepResponsesShaped : Obligations.StepsKeepResponsesShaped := by
  intro s t hs h
  obtain ⟨-, rfl⟩ | ⟨e, rest, -, rfl⟩ := step_serve_cases h
  · exact hs
  · intro x hx
    obtain hold | hnew := List.mem_append.mp hx
    · exact hs x hold
    · cases e with
      | reset => cases hnew
      | request r => exact List.mem_singleton.mp hnew ▸ requestResponse_wellShaped _ r

end Sys2Proof.Machine
end

section
/-! A run serves the pending events one after the other: the registers after it are `crcAfter`, and the responses
are those of the events at the registers each one finds (20_memory.md R52, 40_crc.md R93). -/

namespace Sys2Proof.Machine

/-- The responses to a list of events, the first of which finds the registers `c`. -/
def responsesTo (c : Acc → Word) : List Event → List Response
  | [] => []
  | e :: es => e.responses c ++ responsesTo (fun a => e.register a (c a)) es

theorem run_core_succ {s t : State} (n : Nat) (h : step s = .next t) :
    Host.Core.run core (n + 1) s = Host.Core.run core n t := by
  have h' : core.step s = .next t := h
  simp only [Host.Core.run, h']

/-- Serving every pending event folds them over the state, oldest first. -/
theorem serveAll_eq (s : State) : serveAll s = .next (s.pending.foldl State.serve (s.withPending [])) := by
  suffices h : ∀ (es : List Event) (s : State), s.pending = es →
      Host.Core.run core es.length s = .next (es.foldl State.serve (s.withPending [])) from h _ s rfl
  intro es
  induction es with
  | nil =>
    intro s hp
    have hs : s = s.withPending [] := state_ext (fun a => (withPending_crc s a _).symm) hp rfl
    exact congrArg Host.Outcome.next hs
  | cons e es ih =>
    intro s hp
    rw [List.length_cons, run_core_succ _ (step_of_pending_cons hp), ih _ rfl]
    rfl

theorem foldl_serve_pending (es : List Event) (s : State) : (es.foldl State.serve s).pending = s.pending := by
  induction es generalizing s with
  | nil => rfl
  | cons e es ih => rw [List.foldl_cons, ih, serve_pending]

theorem foldl_serve_crc (es : List Event) (s : State) (a : Acc) :
    (es.foldl State.serve s).crc a = crcAfter a (s.crc a) es := by
  induction es generalizing s with
  | nil => rfl
  | cons e es ih => rw [List.foldl_cons, ih, serve_crc]; rfl

theorem foldl_serve_responses (es : List Event) (s : State) :
    (es.foldl State.serve s).responses = s.responses ++ responsesTo s.crc es := by
  induction es generalizing s with
  | nil => exact (List.append_nil _).symm
  | cons e es ih =>
    have hcrc : (s.serve e).crc = fun a => e.register a (s.crc a) := funext fun a => serve_crc s e a
    rw [List.foldl_cons, ih, serve_responses, List.append_assoc, hcrc]
    rfl

/-- What serving everything ends in, field by field. -/
theorem serveAll_spec (s : State) : ∃ t, serveAll s = .next t ∧ t.pending = [] ∧
    (∀ a, t.crc a = crcAfter a (s.crc a) s.pending) ∧
    t.responses = s.responses ++ responsesTo s.crc s.pending := by
  have hcrc : (s.withPending []).crc = s.crc := funext fun a => withPending_crc s a _
  refine ⟨_, serveAll_eq s, foldl_serve_pending _ _, fun a => ?_, ?_⟩
  · rw [foldl_serve_crc, hcrc]
  · rw [foldl_serve_responses, hcrc, withPending_responses]

/-- Settles O46: the register part of `serveAll_spec`. -/
theorem registersFollowTheirOwnEvents : Obligations.RegistersFollowTheirOwnEvents := by
  intro s
  obtain ⟨t, ht, -, hcrc, -⟩ := serveAll_spec s
  exact ⟨t, ht, hcrc⟩

theorem responsesTo_length (c : Acc → Word) (es : List Event) :
    (responsesTo c es).length = (requestsOf es).length := by
  induction es generalizing c with
  | nil => rfl
  | cons e es ih =>
    cases e with
    | reset => simpa [responsesTo, requestsOf, Event.responses] using ih _
    | request r => simp [responsesTo, requestsOf, Event.responses, ih]

/-- Settles O44: every event takes one step, and `responsesTo` has one entry for each request. -/
theorem everyRequestGetsOneResponse : Obligations.EveryRequestGetsOneResponse := by
  intro s
  obtain ⟨t, ht, hp, -, hr⟩ := serveAll_spec s
  exact ⟨t, _, ht, hp, hr, responsesTo_length _ _⟩

/-- Settles O45: a fold over a concatenation is two folds. -/
theorem servingComposes : Obligations.ServingComposes := by
  intro s xs ys
  refine ⟨_, serveAll_eq _, ?_⟩
  rw [serveAll_eq, serveAll_eq]
  simp only [withPending_pending, List.foldl_append]
  refine congrArg (fun t => Host.Outcome.next (ys.foldl State.serve t)) ?_
  exact state_ext (fun a => (withPending_crc _ a _).symm) (foldl_serve_pending _ _) rfl

/-- Without an initialisation a register takes up the bytes fed to it, in order (R93). -/
theorem crcAfter_of_not_inits {a : Acc} {es : List Event} (h : ∀ e ∈ es, e.inits a = false) (v : Word) :
    crcAfter a v es = crcUpdate v (es.flatMap (Event.fed a)) := by
  induction es generalizing v with
  | nil => rfl
  | cons e es ih =>
    have he : e.inits a = false := h e List.mem_cons_self
    rw [crcAfter, ih fun e' he' => h e' (List.mem_cons_of_mem e he'), List.flatMap_cons, crcUpdate_append, he]
    rfl

/-- Settles O47: `crcAfter` without an initialisation. -/
theorem continuousAccumulation : Obligations.ContinuousAccumulation := by
  intro s a h
  obtain ⟨t, ht, -, hcrc, -⟩ := serveAll_spec s
  exact ⟨t, ht, by rw [hcrc, crcAfter_of_not_inits h]⟩

/-- Only a digest of the other register shows it in a response (R22). -/
theorem event_responses_congr {a : Acc} {c c' : Acc → Word} {e : Event} (h : c a = c' a)
    (hd : ∀ r, e = .request r → decode r ≠ .ok (.crcDigest a.other)) : e.responses c = e.responses c' := by
  cases e with
  | reset => rfl
  | request r =>
    refine congrArg (fun x => [x]) ?_
    cases hr : decode r with
    | error d => rw [requestResponse_of_decode_error r _ hr, requestResponse_of_decode_error r _ hr]
    | ok i =>
      rw [requestResponse_of_decode_ok r _ hr, requestResponse_of_decode_ok r _ hr]
      cases i with
      | crcInit a' => rfl
      | crcUpdate a' bs => rfl
      | crcDigest a' =>
        have ha : a' = a := by
          have := hd r rfl
          cases a <;> cases a' <;> simp_all [Acc.other]
        rw [execResponse, execResponse, ha, h]
      | fcEncode id data => rfl
      | fcDecode env => rfl

theorem responsesTo_congr {a : Acc} {c c' : Acc → Word} {es : List Event} (h : c a = c' a)
    (hd : ∀ r, .request r ∈ es → decode r ≠ .ok (.crcDigest a.other)) :
    responsesTo c es = responsesTo c' es := by
  induction es generalizing c c' with
  | nil => rfl
  | cons e es ih =>
    have he := event_responses_congr (e := e) h fun r hr => hd r (hr ▸ List.mem_cons_self)
    rw [responsesTo, responsesTo, he,
      ih (c' := fun b => e.register b (c' b)) (congrArg (e.register a) h) fun r hr => hd r (.tail _ hr)]

/-- Settles O48: `crcAfter` reads the one register, and of the responses only the other's digests do not. -/
theorem otherAccumulatorIsInvisible : Obligations.OtherAccumulatorIsInvisible := by
  intro s u a hp hr hc
  obtain ⟨t, ht, -, htc, htr⟩ := serveAll_spec s
  obtain ⟨v, hv, -, hvc, hvr⟩ := serveAll_spec u
  refine ⟨t, v, ht, hv, by rw [htc, hvc, hc, hp], fun hd => ?_⟩
  rw [htr, hvr, responsesTo_congr hc hd, hr, hp]

/-- Settles O41: serving a request that raises appends its error, so the rest is served from the same registers. -/
theorem errorsLeaveNoTrace : Obligations.ErrorsLeaveNoTrace := by
  intro s t r rest k hp h hk
  obtain ⟨v, hv, -, hvc, hvr⟩ := serveAll_spec (s.withPending rest)
  obtain ⟨u, hu, -, huc, hur⟩ := serveAll_spec s
  have ht := step_of_pending_cons hp
  rw [h, Host.Outcome.next.injEq] at ht
  rw [ht, serve_responses, withPending_responses] at hk
  have hresp : (Event.request r).responses s.crc = [.err k] := List.append_cancel_left hk
  have hreg : ∀ a, (Event.request r).register a (s.crc a) = s.crc a := fun a => by
    rw [← serve_crc, (serve_of_err hresp).2, respond_crc]
  refine ⟨u, v, responsesTo s.crc rest, hu, hv, fun a => ?_, ?_, ?_⟩
  · rw [huc, hvc, hp, withPending_crc, withPending_pending]
    exact congrArg (crcAfter a · rest) (hreg a)
  · rw [hur, hp, responsesTo, hresp, funext hreg]
    rfl
  · rw [hvr, withPending_responses, withPending_pending]
    exact congrArg (fun c => s.responses ++ responsesTo c rest) (funext fun a => withPending_crc s a rest)

/-! ### Requests served by name -/

theorem serve_crcUpdate (a : Acc) (bs : List Byte) (s : State) :
    s.serve (.request (encode (.crcUpdate a bs))) =
      complete .none (s.setCrc a (crcUpdate (s.crc a) bs)) :=
  (Host.Outcome.next.inj (exec_eq_serve s _ (decode_encode (.crcUpdate a bs)))).symm

theorem serve_crcDigest (a : Acc) (s : State) :
    s.serve (.request (encode (.crcDigest a))) = complete (.digest (be32 (s.crc a))) s :=
  (Host.Outcome.next.inj (exec_eq_serve s _ (decode_encode (.crcDigest a)))).symm

/-- Settles O3: the two words decode to `CRC.INIT 0` and `CRC.INIT 1`, whatever fields they ignore. -/
theorem initialisingBothStandsForReset : Obligations.InitialisingBothStandsForReset := by
  intro s rest id p id' p' hp
  have h1 : decode (Request.ofSel 0b00010#5 id p) = .ok (.crcInit .page) :=
    (decode_eq_crcInit _ _).mpr ⟨rfl, rfl⟩
  have h2 : decode (Request.ofSel 0b00011#5 id' p') = .ok (.crcInit .image) :=
    (decode_eq_crcInit _ _).mpr ⟨rfl, rfl⟩
  refine ⟨_, (run_core_succ 1 ((step_of_decode_ok hp h1).trans (exec_crcInit _ _))).trans
    (run_core_succ 0 ((step_of_decode_ok rfl h2).trans (exec_crcInit _ _))), fun a => ?_, rfl,
    List.append_assoc _ _ _⟩
  cases a <;> rfl

/-- Settles O25: the four requests served by name; the digests find the register after one and after both
updates. -/
theorem digestThenContinue : Obligations.DigestThenContinue := by
  intro a bs cs s hp
  refine ⟨_, serveAll_eq s, ?_⟩
  rw [hp]
  simp [serve_crcUpdate, serve_crcDigest, crcUpdate_append]

/-- What a list of updates of one accumulator feeds to either. -/
theorem flatMap_fed_updates (a b : Acc) (cuts : List (List Byte)) :
    (cuts.map fun c => Event.request (encode (.crcUpdate a c))).flatMap (Event.fed b) =
      if a = b then cuts.flatten else [] := by
  induction cuts with
  | nil => simp
  | cons c cuts ih =>
    rw [List.map_cons, List.flatMap_cons, ih]
    by_cases hab : a = b <;> simp [Event.fed, hab]

/-- Settles O16: the updates initialise nothing, so each register takes up what they feed to it, which is the
concatenation for `a` and nothing for the other. -/
theorem cuttingTheStreamChangesNothing : Obligations.CuttingTheStreamChangesNothing := by
  intro a cuts s hp
  obtain ⟨t, ht, -, htc, -⟩ := serveAll_spec s
  refine ⟨t, _, ht, exec_crcUpdate a cuts.flatten s, fun b => ?_⟩
  have hinits : ∀ e ∈ s.pending, e.inits b = false := by
    intro e he
    rw [hp, List.mem_map] at he
    obtain ⟨c, -, rfl⟩ := he
    simp [Event.inits]
  rw [htc, crcAfter_of_not_inits hinits, hp, flatMap_fed_updates, complete_crc, crc_setCrc]
  by_cases hab : b = a
  · rw [hab, if_pos rfl, if_pos rfl]
  · rw [if_neg (Ne.symm hab), if_neg hab, crcUpdate_nil]

end Sys2Proof.Machine
end

section
/-! The CRC as arithmetic over GF(2): a bit step shifts the register and adds in the polynomial when the feedback
bit is 1, so it is linear and loses nothing; the byte step and the update are folds of it (40_crc.md R91, R92,
R97, R98). -/

namespace Sys2Proof.Machine

/-- What a bit step adds to the shifted register, for the feedback bit `f`. -/
def feedback (f : Bool) : Word := if f then Config.crcPoly else 0#32

theorem feedback_xor (f g : Bool) : feedback (f ^^ g) = feedback f ^^^ feedback g := by
  cases f <;> cases g <;> decide

/-- The polynomial's lowest term is 1. -/
theorem feedback_getLsbD_zero (f : Bool) : (feedback f).getLsbD 0 = f := by
  cases f <;> decide

theorem crcStepBit_eq (r : Word) (b : Bool) :
    crcStepBit r b = (r <<< 1) ^^^ feedback (r.getLsbD 31 ^^ b) := by
  rw [crcStepBit]
  cases r.getLsbD 31 ^^ b
  · exact (BitVec.xor_zero).symm
  · rfl

theorem crcShift_eq_crcStepBit (r : Word) : crcShift r = crcStepBit r false := by
  rw [crcShift, crcStepBit, Bool.xor_false]

/-- Settles O18: the shift doubles modulo 2^32, and the feedback bit is 1 when the top bit and `b` differ. -/
theorem bitStepIsShiftAndXor : Obligations.BitStepIsShiftAndXor := by
  intro r b
  have htop : r.getLsbD 31 = decide (2 ^ 31 ≤ r.toNat) := BitVec.msb_eq_decide r
  have hshift : (r <<< 1).toNat = 2 * r.toNat % 2 ^ 32 := by
    rw [BitVec.toNat_shiftLeft, Nat.shiftLeft_eq, Nat.mul_comm, pow_one]
  rw [crcStepBit_eq, BitVec.toNat_xor, hshift, htop]
  by_cases hb : decide (2 ^ 31 ≤ r.toNat) = b
  · rw [if_pos hb, hb, Bool.xor_self]
    rfl
  · rw [if_neg hb, Bool.xor_iff_ne.mpr hb]
    rfl

/-! ### Nothing is lost -/

/-- For a fixed input bit the bit step loses nothing: its low bit tells which top bit was shifted out. -/
theorem crcStepBit_injective (b : Bool) : Function.Injective (fun r => crcStepBit r b) := by
  intro r r' h
  simp only [crcStepBit_eq] at h
  have htop : r.getLsbD 31 = r'.getLsbD 31 := by
    have h0 := congrArg (fun w => BitVec.getLsbD w 0) h
    simp only [BitVec.getLsbD_xor, BitVec.getLsbD_shiftLeft, feedback_getLsbD_zero] at h0
    simpa using h0
  have hshift : r <<< 1 = r' <<< 1 := by
    rw [htop] at h
    exact (BitVec.xor_left_inj _).mp h
  refine BitVec.eq_of_getLsbD_eq fun i hi => ?_
  by_cases hi31 : i = 31
  · rw [hi31, htop]
  · have hbit := congrArg (fun w => BitVec.getLsbD w (i + 1)) hshift
    simpa [show i + 1 < 32 by omega, hi] using hbit

/-- A fold loses nothing of its start when no step of it does. -/
theorem foldl_injective {α β : Type} {f : α → β → α} (h : ∀ b, Function.Injective (fun a => f a b))
    (l : List β) : Function.Injective (fun a => l.foldl f a) := by
  induction l with
  | nil => exact Function.injective_id
  | cons b l ih => exact ih.comp (h b)

theorem crcStepByte_injective (B : Byte) : Function.Injective (fun r => crcStepByte r B) :=
  foldl_injective (fun i => crcStepBit_injective (B.getLsbD i)) _

theorem crcUpdate_injective (s : List Byte) : Function.Injective (fun r => crcUpdate r s) :=
  foldl_injective crcStepByte_injective s

/-- Settles O21: an injective function of a finite set to itself is bijective. -/
theorem updateIsBijective : Obligations.UpdateIsBijective :=
  fun s => Finite.injective_iff_bijective.mp (crcUpdate_injective s)

/-! ### Linearity -/

theorem crcStepBit_xor (r r' : Word) (b b' : Bool) :
    crcStepBit (r ^^^ r') (b ^^ b') = crcStepBit r b ^^^ crcStepBit r' b' := by
  have hf : ((r ^^^ r').getLsbD 31 ^^ (b ^^ b')) = ((r.getLsbD 31 ^^ b) ^^ (r'.getLsbD 31 ^^ b')) := by
    rw [BitVec.getLsbD_xor, Bool.xor_assoc, Bool.xor_assoc, Bool.xor_left_comm b]
  rw [crcStepBit_eq, crcStepBit_eq, crcStepBit_eq, hf, feedback_xor, BitVec.shiftLeft_xor_distrib]
  ac_rfl

theorem crcStepByte_xor (r r' : Word) (B B' : Byte) :
    crcStepByte (r ^^^ r') (B ^^^ B') = crcStepByte r B ^^^ crcStepByte r' B' := by
  refine List.foldl_hom₂ _ (· ^^^ ·) _ _ _ r r' fun r r' i => ?_
  rw [BitVec.getLsbD_xor, crcStepBit_xor]

/-- Settles O22: byte by byte, each byte is itself added to a zero byte. -/
theorem updateIsLinear : Obligations.UpdateIsLinear := by
  intro r r' s
  induction s generalizing r r' with
  | nil => rfl
  | cons B s ih =>
    have hB := crcStepByte_xor r r' B 0#8
    rw [BitVec.xor_zero] at hB
    rw [crcUpdate_cons, hB, ih]
    rfl

theorem crcUpdate_zero_zeros (n : Nat) : crcUpdate 0#32 (zeros n) = 0#32 := by
  induction n with
  | zero => rfl
  | succ n ih => exact ih

/-- Settles O17: every zero byte steps zero to zero. -/
theorem zeroRegisterStaysZero : Obligations.ZeroRegisterStaysZero := by
  intro a n s h
  refine ⟨_, exec_crcUpdate a (zeros n) s, ?_⟩
  rw [complete_crc, crc_setCrc_same, h, crcUpdate_zero_zeros]

/-! ### The folded form and the table -/

/-- A shift of `r` with `w` added in is a bit step of `r` with the top bit of `w`, and the rest of `w` moves up. -/
theorem crcShift_xor (r w : Word) : crcShift (r ^^^ w) = crcStepBit r (w.getLsbD 31) ^^^ (w <<< 1) := by
  rw [crcShift_eq_crcStepBit, crcStepBit_eq, crcStepBit_eq, Bool.xor_false, BitVec.getLsbD_xor,
    BitVec.shiftLeft_xor_distrib]
  ac_rfl

/-- Several shifts of `r` with `w` added in take the bits of `w` in from the top. -/
theorem crcShift_iterate_xor (r w : Word) {n : Nat} (hn : n ≤ 31) : crcShift^[n] (r ^^^ w) =
    (List.range n).foldl (fun r k => crcStepBit r (w.getLsbD (31 - k))) r ^^^ (w <<< n) := by
  induction n with
  | zero => simp
  | succ n ih =>
    have hbit : (w <<< n).getLsbD 31 = w.getLsbD (31 - n) := by
      rw [BitVec.getLsbD_shiftLeft, decide_eq_true (by omega), decide_eq_false (by omega)]
      rfl
    rw [Function.iterate_succ_apply', ih (by omega), crcShift_xor, hbit, List.range_succ, List.foldl_append,
      BitVec.shiftLeft_add]
    rfl

/-- Eight shifts of `r` with `w` added in are the byte step of `r` with the top byte of `w`. -/
theorem crcShift_eight_xor (r w : Word) :
    crcShift^[8] (r ^^^ w) = crcStepByte r (w.extractLsb' 24 8) ^^^ (w <<< 8) := by
  have hbyte : crcStepByte r (w.extractLsb' 24 8) =
      (List.range 8).foldl (fun r k => crcStepBit r ((w.extractLsb' 24 8).getLsbD (7 - k))) r := rfl
  rw [crcShift_iterate_xor r w (by omega), hbyte]
  congr 1
  refine List.foldl_ext _ _ _ fun r k hk => ?_
  have hk8 : k < 8 := List.mem_range.mp hk
  rw [BitVec.getLsbD_extractLsb', decide_eq_true (by omega), Bool.true_and,
    show 24 + (7 - k) = 31 - k by omega]

/-- The top byte after a shift is the byte that was shifted there. -/
theorem extractTop_shiftLeft (r : Word) {k : Nat} (hk : k ≤ 24) :
    (r <<< k).extractLsb' 24 8 = r.extractLsb' (24 - k) 8 := by
  refine BitVec.eq_of_getLsbD_eq fun i hi => ?_
  rw [BitVec.getLsbD_extractLsb', BitVec.getLsbD_extractLsb', BitVec.getLsbD_shiftLeft,
    decide_eq_true (show 24 + i < 32 by omega), decide_eq_false (show ¬ 24 + i < k by omega),
    show 24 + i - k = 24 - k + i by omega]
  rfl

theorem extractTop_setWidth (B : Byte) : (B.setWidth 32 <<< 24).extractLsb' 24 8 = B := by
  have hB := B.isLt
  rw [extractTop_shiftLeft _ (by omega)]
  apply BitVec.eq_of_toNat_eq
  rw [extractByte_toNat, BitVec.toNat_setWidth]
  omega

theorem shiftOut_setWidth (B : Byte) : B.setWidth 32 <<< 24 <<< 8 = 0#32 := by
  rw [← BitVec.shiftLeft_add, BitVec.shiftLeft_eq_zero (by omega)]

/-- Settles O19: eight shifts with the byte added in at the top, below which it leaves nothing. -/
theorem foldedByteStepAgrees : Obligations.FoldedByteStepAgrees := by
  intro r B
  rw [crcStepByteFolded, crcShift_eight_xor, extractTop_setWidth, shiftOut_setWidth, BitVec.xor_zero]

/-- The byte step by the register's top byte clears it: nothing is fed back. -/
theorem crcStepByte_extractTop (r : Word) : crcStepByte r (r.extractLsb' 24 8) = r <<< 8 := by
  have h := crcShift_eight_xor r r
  rw [BitVec.xor_self] at h
  have h0 : crcShift^[8] 0#32 = 0#32 := rfl
  exact BitVec.xor_eq_zero_iff.mp (h.symm.trans h0)

/-- A byte step is the shifted register and the byte step of zero with the bytes' sum. -/
theorem crcStepByte_eq_shift_xor (r : Word) (B : Byte) :
    crcStepByte r B = (r <<< 8) ^^^ crcStepByte 0#32 (r.extractLsb' 24 8 ^^^ B) := by
  have h := crcStepByte_xor r 0#32 (r.extractLsb' 24 8) (r.extractLsb' 24 8 ^^^ B)
  rwa [BitVec.xor_zero, ← BitVec.xor_assoc, BitVec.xor_self, BitVec.zero_xor, crcStepByte_extractTop] at h

/-- A table entry is the byte step of zero. -/
theorem crcTable_eq (i : Byte) : crcTable i = crcStepByte 0#32 i := by
  have h := crcStepByte_eq_shift_xor (i.setWidth 32 <<< 24) 0#8
  rwa [shiftOut_setWidth, extractTop_setWidth, BitVec.xor_zero, BitVec.zero_xor] at h

/-- Settles O20: the form of `crcStepByte_eq_shift_xor`, and five entries computed. -/
theorem tableByteStepAgrees : Obligations.TableByteStepAgrees := by
  refine ⟨fun r B => ?_, ?_, ?_, ?_, ?_, ?_⟩
  · rw [crcStepByteTable, crcTable_eq, ← crcStepByte_eq_shift_xor]
  all_goals decide

/-- Each byte of its own digest shifts a byte of the register out. -/
theorem crcUpdate_be32 (r : Word) : crcUpdate r (be32 r) = 0#32 := by
  have hbyte : ∀ k, k ≤ 24 → crcStepByte (r <<< k) (r.extractLsb' (24 - k) 8) = r <<< (k + 8) := fun k hk => by
    rw [← extractTop_shiftLeft r hk, crcStepByte_extractTop, BitVec.shiftLeft_add]
  calc crcUpdate r (be32 r)
    _ = crcStepByte (crcStepByte (crcStepByte (crcStepByte (r <<< 0) (r.extractLsb' 24 8))
          (r.extractLsb' 16 8)) (r.extractLsb' 8 8)) (r.extractLsb' 0 8) := by
        rw [BitVec.shiftLeft_zero]
        rfl
    _ = r <<< 32 := by rw [hbyte 0 (by omega), hbyte 8 (by omega), hbyte 16 (by omega), hbyte 24 (by omega)]
    _ = 0#32 := BitVec.shiftLeft_eq_zero (by omega)

/-- Settles O24: the digest is the bytes of the register, which it leaves alone. -/
theorem ownDigestDrivesRegisterToZero : Obligations.OwnDigestDrivesRegisterToZero := by
  intro a s
  refine ⟨_, _, _, exec_crcDigest a s, complete_responses s _, exec_crcUpdate a _ _, ?_⟩
  rw [complete_crc, crc_setCrc_same, complete_crc, crcUpdate_be32]

/-- Settles O26: the check value and the golden vector, computed. -/
theorem checkValueOfTheAlgorithm : Obligations.CheckValueOfTheAlgorithm := by
  refine ⟨?_, ?_⟩ <;> decide +kernel

/-! ### Idempotency -/

/-- No number of zero bytes up to 37 returns the register value 1 to itself, so x^(8n) is not 1 modulo the
polynomial there. -/
theorem crcUpdate_one_zeros_ne {n : Nat} (h0 : 0 < n) (h : n ≤ 37) : crcUpdate 1#32 (zeros n) ≠ 1#32 := by
  have hall : ∀ n < 38, 0 < n → crcUpdate 1#32 (zeros n) ≠ 1#32 := by decide +kernel
  exact hall n (by omega) h0

/-- A non-empty payload of at most 37 bytes changes some register: if it changed none, linearity would make as
many zero bytes change none. -/
theorem exists_crcUpdate_ne {bs : List Byte} (hne : bs ≠ []) (h : bs.length ≤ 37) : ∃ r, crcUpdate r bs ≠ r := by
  by_contra hall
  push Not at hall
  have hlin := updateIsLinear 0#32 1#32 bs
  rw [BitVec.zero_xor, hall, hall, BitVec.zero_xor] at hlin
  exact crcUpdate_one_zeros_ne (List.length_pos_iff.mpr hne) h hlin.symm

/-- Settles O15: the codec answers and a digest answers from registers no one writes; an update repeated is the
update by the bytes twice, and `crcUpdate_injective` carries "changed nothing" over. -/
theorem sideEffectsAndIdempotency : Obligations.SideEffectsAndIdempotency := by
  refine ⟨fun a s => ⟨exec_crcDigest a s, ?_⟩,
    fun id data s => ⟨encodeResponse id data, exec_fcEncode id data s, exec_fcEncode id data _⟩,
    fun env s => ⟨decodeResponse env, exec_fcDecode env s, exec_fcDecode env _⟩,
    fun a s => ⟨_, _, exec_crcInit a s, exec_crcInit a _, fun b => ?_⟩,
    fun a bs s => ⟨_, _, _, exec_crcUpdate a bs s, exec_crcUpdate a bs _, exec_crcUpdate a (bs ++ bs) s,
      fun b => ?_, ?_⟩, fun a bs hne h => ?_⟩
  · rw [exec_crcDigest, respond_crc]
    rfl
  · simp only [complete_crc, crc_setCrc]
    split <;> rfl
  · simp only [complete_crc, crc_setCrc, if_true, crcUpdate_append]
    split <;> rfl
  · simp only [complete_crc, crc_setCrc_same]
    exact (crcUpdate_injective bs).eq_iff
  · obtain ⟨r, hr⟩ := exists_crcUpdate_ne hne h
    refine ⟨State.reset.setCrc a r, _, _, exec_crcUpdate a bs _, exec_crcUpdate a bs _, ?_⟩
    simp only [complete_crc, crc_setCrc_same]
    exact (crcUpdate_injective bs).ne hr

end Sys2Proof.Machine
end

section
/-! The polynomial form (40_crc.md R97): a register is a polynomial over GF(2), one bit step is multiplication by x
with the input bit added at x^32, and both are read modulo the generator. Congruence is equality in the quotient
ring `AdjoinRoot generator`. -/

namespace Sys2Proof.Machine

open Sys2Proof.Claims Polynomial

theorem bitPoly_coeff (n : Nat) (bit : Nat → Bool) (i : Nat) :
    (bitPoly n bit).coeff i = if i < n ∧ bit i then 1 else 0 := by
  have hterm : ∀ k, ((if bit k then X ^ k else 0 : (ZMod 2)[X])).coeff i = if i = k ∧ bit i then 1 else 0 := by
    intro k
    by_cases hk : i = k
    · subst hk
      cases bit i <;> simp
    · cases bit k <;> simp [coeff_X_pow, hk]
  rw [bitPoly, finsetSum_coeff, Finset.sum_congr rfl fun k _ => hterm k]
  by_cases hi : i < n
  · simp [hi, Finset.sum_ite_eq, ite_and]
  · rw [if_neg fun h => hi h.1]
    refine Finset.sum_eq_zero fun k hk => if_neg fun h => hi ?_
    exact h.1 ▸ Finset.mem_range.mp hk

theorem wordPoly_degree_lt (r : Word) : (wordPoly r).degree < 32 := by
  refine (degree_lt_iff_coeff_zero _ 32).mpr fun m hm => ?_
  rw [wordPoly, bitPoly_coeff, if_neg fun h => absurd h.1 (by omega)]

/-- Exclusive-or is addition over GF(2). -/
theorem wordPoly_xor (r r' : Word) : wordPoly (r ^^^ r') = wordPoly r + wordPoly r' := by
  ext i
  rw [coeff_add, wordPoly, wordPoly, wordPoly, bitPoly_coeff, bitPoly_coeff, bitPoly_coeff, BitVec.getLsbD_xor]
  by_cases hi : i < 32
  · cases r.getLsbD i <;> cases r'.getLsbD i <;> simp [hi, CharTwo.add_self_eq_zero]
  · simp [hi]

/-- A shift multiplies by x and drops the coefficient of x^32. -/
theorem wordPoly_shiftLeft (r : Word) :
    wordPoly r * X = wordPoly (r <<< 1) + if r.getLsbD 31 then X ^ 32 else 0 := by
  have hshift : ∀ i, i < 31 → (r <<< 1).getLsbD (i + 1) = r.getLsbD i := fun i hi => by
    rw [BitVec.getLsbD_shiftLeft, decide_eq_true (by omega), decide_eq_false (by omega)]
    rfl
  have hzero : (r <<< 1).getLsbD 0 = false := by
    rw [BitVec.getLsbD_shiftLeft, decide_eq_true (show 0 < 1 by omega)]
    simp
  have hlow : wordPoly (r <<< 1) = (∑ i ∈ Finset.range 31, if r.getLsbD i then X ^ i else 0) * X := by
    rw [wordPoly, bitPoly, Finset.sum_range_succ', hzero, Finset.sum_mul, if_neg Bool.false_ne_true, add_zero]
    refine Finset.sum_congr rfl fun i hi => ?_
    rw [hshift i (Finset.mem_range.mp hi), ite_mul, zero_mul, pow_succ]
  rw [hlow, wordPoly, bitPoly, Finset.sum_range_succ, add_mul, ite_mul, zero_mul, ← pow_succ]

theorem wordPoly_feedback (f : Bool) : wordPoly (feedback f) = if f then wordPoly Config.crcPoly else 0 := by
  cases f with
  | true => rfl
  | false => simp [feedback, wordPoly, bitPoly]

/-- The polynomial register constant is the generator without its top term. -/
theorem generator_eq : generator = X ^ 32 + wordPoly Config.crcPoly := by
  simp [generator, wordPoly, bitPoly, Finset.sum_range_succ, Config.crcPoly]
  ring

theorem generator_monic : generator.Monic := by
  rw [generator_eq]
  exact monic_X_pow_add (wordPoly_degree_lt _)

/-- One bit step takes the generator off when the feedback bit is 1. -/
theorem wordPoly_crcStepBit (r : Word) (b : Bool) :
    wordPoly r * X + (if b then X ^ 32 else 0) =
      wordPoly (crcStepBit r b) + if r.getLsbD 31 ^^ b then generator else 0 := by
  have htwo : (2 : (ZMod 2)[X]) = 0 := CharTwo.two_eq_zero
  rw [crcStepBit_eq, wordPoly_xor, wordPoly_feedback, wordPoly_shiftLeft, generator_eq]
  cases r.getLsbD 31 <;> cases b <;>
    simp only [Bool.xor_false, Bool.xor_true, Bool.not_false, Bool.not_true, Bool.false_eq_true, if_true,
      if_false]
  · linear_combination (-wordPoly Config.crcPoly) * htwo
  · linear_combination (-wordPoly Config.crcPoly) * htwo
  · linear_combination X ^ 32 * htwo

/-- A register congruent to `p` is its remainder: its degree is below the generator's. -/
theorem wordPoly_eq_modByMonic {r : Word} {p : (ZMod 2)[X]}
    (h : AdjoinRoot.mk generator (wordPoly r) = AdjoinRoot.mk generator p) :
    wordPoly r = p %ₘ generator := by
  have hdeg : generator.degree = 32 := by
    rw [generator_eq, degree_add_eq_left_of_degree_lt, degree_X_pow]
    · rfl
    · rw [degree_X_pow]
      exact wordPoly_degree_lt _
  have hself : wordPoly r %ₘ generator = wordPoly r :=
    (modByMonic_eq_self_iff generator_monic).mpr (by rw [hdeg]; exact wordPoly_degree_lt r)
  rw [← hself]
  exact modByMonic_eq_of_dvd_sub generator_monic (AdjoinRoot.mk_eq_mk.mp h)

theorem mk_crcStepBit (r : Word) (b : Bool) : AdjoinRoot.mk generator (wordPoly (crcStepBit r b)) =
    AdjoinRoot.mk generator (wordPoly r * X + if b then X ^ 32 else 0) := by
  rw [wordPoly_crcStepBit, map_add]
  cases r.getLsbD 31 ^^ b <;> simp

theorem mk_crcStepByte (r : Word) (B : Byte) : AdjoinRoot.mk generator (wordPoly (crcStepByte r B)) =
    AdjoinRoot.mk generator (wordPoly r * X ^ 8 + bitPoly 8 B.getLsbD * X ^ 32) := by
  have hbit : ∀ (b : Bool) (k : Nat), (if b then X ^ k else 0 : (ZMod 2)[X]) = (if b then 1 else 0) * X ^ k :=
    fun b k => by rw [ite_mul, one_mul, zero_mul]
  simp only [crcStepByte_eq, mk_crcStepBit, map_add, map_mul, bitPoly, Finset.sum_range_succ,
    Finset.sum_range_zero, hbit, map_pow, map_zero]
  ring

theorem mk_crcUpdate (r : Word) (s : List Byte) : AdjoinRoot.mk generator (wordPoly (crcUpdate r s)) =
    AdjoinRoot.mk generator (wordPoly r * X ^ (8 * s.length) + bytesPoly s * X ^ 32) := by
  induction s using List.reverseRecOn with
  | nil => simp [bytesPoly]
  | append_singleton s B ih =>
    have hbytes : bytesPoly (s ++ [B]) = bytesPoly s * X ^ 8 + bitPoly 8 B.getLsbD := List.foldl_append
    rw [crcUpdate_append, crcUpdate_cons, crcUpdate_nil, mk_crcStepByte, map_add, map_mul, ih, hbytes,
      List.length_append, List.length_singleton, ← map_mul, ← map_add]
    exact congrArg _ (by ring)

/-- Settles O23: the congruences, with the register as the remainder. -/
theorem updateIsPolynomialRemainder : Obligations.UpdateIsPolynomialRemainder :=
  ⟨fun r b => wordPoly_eq_modByMonic (mk_crcStepBit r b), fun r s => wordPoly_eq_modByMonic (mk_crcUpdate r s)⟩

end Sys2Proof.Machine
end

section
/-! The data formats of the surrounding software: the two byte reversals of a command, the id of its envelope, and
an image cut into pages of words (45_surrounding_protocol.md R132 to R137). -/

namespace Sys2Proof.Machine

/-- The bytes of a command from the fourth on are its `par2`, last byte first. -/
theorem slice_cmdData (boardId cmd : Byte) (par1 : BitVec 16) (par2 : List Byte) (h : par2.length = 4) :
    slice (cmdData boardId cmd par1 par2) 4 8 = par2.reverse := by
  have hlen : par2.reverse.length ≤ 8 - 4 := by rw [List.length_reverse, h]
  exact List.take_of_length_le hlen

/-- Settles O52: a word is reversed twice; a digest once, so its last byte, the lowest, comes first. -/
theorem netWireOrder : Obligations.NetWireOrder := by
  refine ⟨fun boardId par1 word h => ?_, fun boardId cmd par1 v k hk => ?_⟩
  · rw [slice_cmdData _ _ _ _ (by rw [toCrcOrder, List.length_reverse, h]), toCrcOrder, List.reverse_reverse]
  · obtain rfl | rfl | rfl | rfl : k = 0 ∨ k = 1 ∨ k = 2 ∨ k = 3 := by omega
    · exact extractByte_toNat v 0
    · exact extractByte_toNat v 8
    · exact extractByte_toNat v 16
    · exact extractByte_toNat v 24

/-- Settles O53: a command's envelope carries the command id, which is not the response id. -/
theorem echoedCommandIsNoResponse : Obligations.EchoedCommandIsNoResponse := by
  intro boardId cmd par1 par2 b c h
  have hid : (decodeEnv (commandEnvelope boardId cmd par1 par2)).id = commandId :=
    idOfEnv_encodeEnv _ (by rw [cmdData_length, h])
  have hne : (commandId == responseId) = false := by decide
  refine ⟨hid, ?_⟩
  rw [isResponse, hid, hne]
  rfl

/-! ### Pages -/

/-- Consecutive slices of one size, joined, are the slice from the first to the last. -/
theorem flatten_slices (s : List Byte) (a d n : Nat) :
    ((List.range n).map fun i => slice s (a + d * i) (a + d * i + d)).flatten = slice s a (a + d * n) := by
  induction n with
  | zero => simp [slice]
  | succ n ih =>
    rw [List.range_succ, List.map_append, List.flatten_append, ih]
    simp only [slice, List.map_cons, List.map_nil, List.flatten_cons, List.flatten_nil, List.append_nil,
      Nat.add_sub_cancel_left]
    rw [Nat.mul_succ, List.take_add, List.drop_drop]

theorem imageWord_eq (image : List Byte) (p w : Nat) :
    imageWord image p w = slice image (1024 * p + 4 * w) (1024 * p + 4 * w + 4) := by
  rw [imageWord, pageSize, wordSize, Nat.mul_comm p]

/-- The words of a page, joined, are the page. -/
theorem flatten_pageWords (image : List Byte) (p : Nat) :
    (pageWords image p).flatten = slice image (0 + 1024 * p) (0 + 1024 * p + 1024) := by
  rw [pageWords, funext (imageWord_eq image p), wordsPerPage, flatten_slices, Nat.zero_add]

theorem pageCount_mul {image : List Byte} (h : image.length % 1024 = 0) :
    1024 * pageCount image = image.length := by
  rw [pageCount, pageSize]
  omega

/-- Every word of a page the image has is whole. -/
theorem imageWord_length {image : List Byte} {p w : Nat} (hp : p < pageCount image) (hw : w < 256) :
    (imageWord image p w).length = 4 := by
  have hlen : 1024 * pageCount image ≤ image.length := Nat.mul_div_le _ _
  have hnext : 1024 * (p + 1) ≤ 1024 * pageCount image := Nat.mul_le_mul_left 1024 hp
  rw [imageWord_eq, slice_length]
  omega

theorem length_of_mem_pageWords {image word : List Byte} {p : Nat} (hp : p < pageCount image)
    (hw : word ∈ pageWords image p) : word.length = 4 := by
  obtain ⟨w, hlt, rfl⟩ := List.mem_map.mp hw
  exact imageWord_length hp (List.mem_range.mp hlt)

/-- Settles O54: pages and words are consecutive slices of one size. -/
theorem paddingAndPages : Obligations.PaddingAndPages := by
  refine ⟨fun file => ⟨(1024 - file.length % 1024) % 1024, Nat.mod_lt _ (by omega), rfl, ?_⟩,
    fun image h => ⟨?_, fun p hp => ⟨pageWords_length image p, fun word hw => length_of_mem_pageWords hp hw⟩⟩⟩
  · rw [padImage, List.length_append, zeros_length, pageSize]
    omega
  · simp only [flatten_pageWords]
    rw [flatten_slices, pageCount_mul h, Nat.zero_add, slice, List.drop_zero, Nat.sub_zero, List.take_length]

end Sys2Proof.Machine
end

section
/-! What a list of commands sends against what arrives: command after command, up to the first one that is not
accepted (45_surrounding_protocol.md R140, R141). A command is its code and its envelope. -/

namespace Sys2Proof.Machine

/-- `Sends boardId cs ar sent ok left`: of the commands `cs`, with the lists of arrivals `ar`, the envelopes `sent`
go out and the lists `left` are not read; `ok` says that no command failed. -/
inductive Sends (boardId : Byte) :
    List (Cmd × List Byte) → List (List (List Byte)) → List (List Byte) → Bool → List (List (List Byte)) → Prop
  | nil (ar : List (List (List Byte))) : Sends boardId [] ar [] true ar
  | accepted {c cs ar sent ok left} : Accepted boardId c.1 (ar.headD []) → Sends boardId cs ar.tail sent ok left →
      Sends boardId (c :: cs) ar (c.2 :: sent) ok left
  | failed {c cs ar} : ¬ Accepted boardId c.1 (ar.headD []) → Sends boardId (c :: cs) ar [c.2] false ar.tail

/-- The command at index `k` exists and is accepted. -/
def AcceptedAt (boardId : Byte) (cs : List (Cmd × List Byte)) (ar : List (List (List Byte))) (k : Nat) : Prop :=
  ∃ c, cs[k]? = some c ∧ Accepted boardId c.1 (ar.getD k [])

section
variable {boardId : Byte} {c : Cmd × List Byte} {cs cs' : List (Cmd × List Byte)}
  {ar left left' : List (List (List Byte))} {sent sent' : List (List Byte)} {ok : Bool}

theorem acceptedAt_zero : AcceptedAt boardId (c :: cs) ar 0 ↔ Accepted boardId c.1 (ar.headD []) := by
  cases ar <;> simp [AcceptedAt]

theorem acceptedAt_succ (k : Nat) :
    AcceptedAt boardId (c :: cs) ar (k + 1) ↔ AcceptedAt boardId cs ar.tail k := by
  cases ar <;> simp [AcceptedAt]

/-- Once all of `cs` went through, `cs'` goes on from what they left. -/
theorem Sends.append (h : Sends boardId cs ar sent true left) (h' : Sends boardId cs' left sent' ok left') :
    Sends boardId (cs ++ cs') ar (sent ++ sent') ok left' := by
  generalize hok : true = b at h
  induction h with
  | nil ar => exact h'
  | accepted hc _ ih => exact .accepted hc (ih h' hok)
  | failed hc => cases hok

/-- Nothing is sent after a command that failed. -/
theorem Sends.append_failed (h : Sends boardId cs ar sent false left) (cs' : List (Cmd × List Byte)) :
    Sends boardId (cs ++ cs') ar sent false left := by
  generalize hok : false = b at h ⊢
  induction h with
  | nil ar => cases hok
  | accepted hc _ ih => exact .accepted hc (ih hok)
  | failed hc => exact .failed hc

theorem Sends.sent_eq_take (h : Sends boardId cs ar sent ok left) :
    sent = (cs.map Prod.snd).take sent.length := by
  induction h with
  | nil ar => rfl
  | accepted _ _ ih => simpa using ih
  | failed _ => rfl

theorem Sends.sent_length_le (h : Sends boardId cs ar sent ok left) : sent.length ≤ cs.length := by
  induction h with
  | nil ar => exact le_rfl
  | accepted _ _ ih => exact Nat.succ_le_succ ih
  | failed _ => exact Nat.succ_le_succ (Nat.zero_le _)

/-- Every command before the last one sent was accepted. -/
theorem Sends.acceptedAt_of_lt (h : Sends boardId cs ar sent ok left) {k : Nat} (hk : k + 1 < sent.length) :
    AcceptedAt boardId cs ar k := by
  induction h generalizing k with
  | nil ar => cases hk
  | accepted hc _ ih =>
    cases k with
    | zero => exact acceptedAt_zero.mpr hc
    | succ k => exact (acceptedAt_succ k).mpr (ih (Nat.lt_of_succ_lt_succ hk))
  | failed _ => simp at hk

/-- When a command failed, it is the last one sent. -/
theorem Sends.not_acceptedAt_last (h : Sends boardId cs ar sent false left) :
    0 < sent.length ∧ ¬ AcceptedAt boardId cs ar (sent.length - 1) := by
  generalize hok : false = b at h
  induction h with
  | nil ar => cases hok
  | accepted hc _ ih =>
    obtain ⟨hpos, hlast⟩ := ih hok
    refine ⟨Nat.succ_pos _, ?_⟩
    rw [List.length_cons, Nat.add_sub_cancel, ← Nat.sub_add_cancel hpos, acceptedAt_succ]
    exact hlast
  | failed hc => exact ⟨Nat.one_pos, fun h => hc (acceptedAt_zero.mp h)⟩

/-- When no command failed, all were sent and accepted. -/
theorem Sends.all_accepted (h : Sends boardId cs ar sent true left) :
    sent.length = cs.length ∧ ∀ k, k < sent.length → AcceptedAt boardId cs ar k := by
  generalize hok : true = b at h
  induction h with
  | nil ar => exact ⟨rfl, fun k hk => absurd hk (Nat.not_lt_zero k)⟩
  | accepted hc _ ih =>
    obtain ⟨hlen, hall⟩ := ih hok
    refine ⟨congrArg Nat.succ hlen, fun k hk => ?_⟩
    cases k with
    | zero => exact acceptedAt_zero.mpr hc
    | succ k => exact (acceptedAt_succ k).mpr (hall k (Nat.lt_of_succ_lt_succ hk))
  | failed hc => cases hok

end

/-- Between the sessions `σ` and `σ'` the commands `cs` were sent, all of them when there is no abort `o`. -/
def Session.Runs (σ : Session) (boardId : Byte) (cs : List (Cmd × List Byte)) (o : Option Abort)
    (σ' : Session) : Prop :=
  ∃ sent, σ'.sent = σ.sent ++ sent ∧ Sends boardId cs σ.arrivals sent o.isNone σ'.arrivals

section
variable {boardId : Byte} {σ σ' σ'' : Session} {cs cs' : List (Cmd × List Byte)} {o : Option Abort} {why : Abort}

theorem runs_nil (σ : Session) : σ.Runs boardId [] none σ :=
  ⟨[], (List.append_nil _).symm, .nil _⟩

/-- One command, from what `command_spec` says of it. -/
theorem runs_single {cmd : Cmd} {e : List Byte} (hs : σ'.sent = σ.sent ++ [e])
    (ha : σ'.arrivals = σ.arrivals.tail) (ho : o = none ↔ Accepted boardId cmd (σ.arrivals.headD [])) :
    σ.Runs boardId [(cmd, e)] o σ' := by
  refine ⟨[e], hs, ?_⟩
  rw [ha]
  cases o with
  | none => exact .accepted (c := (cmd, e)) (ho.mp rfl) (.nil _)
  | some why => exact .failed (c := (cmd, e)) fun h => nomatch ho.mpr h

theorem Session.Runs.append (h : σ.Runs boardId cs none σ') (h' : σ'.Runs boardId cs' o σ'') :
    σ.Runs boardId (cs ++ cs') o σ'' := by
  obtain ⟨sent, hs, hsends⟩ := h
  obtain ⟨sent', hs', hsends'⟩ := h'
  exact ⟨sent ++ sent', by rw [hs', hs, List.append_assoc], hsends.append hsends'⟩

theorem Session.Runs.append_aborted (h : σ.Runs boardId cs (some why) σ') (cs' : List (Cmd × List Byte)) :
    σ.Runs boardId (cs ++ cs') (some why) σ' := by
  obtain ⟨sent, hs, hsends⟩ := h
  exact ⟨sent, hs, hsends.append_failed cs'⟩

end

/-! ### The prescribed commands -/

section
variable (boardId : Byte) (image : List Byte)

/-- The `WBUF` of word `w` of page `p`. -/
def wordCommand (p w : Nat) : Cmd × List Byte :=
  (.wbuf, commandEnvelope boardId .wbuf w (toCrcOrder (imageWord image p w)))

/-- The commands of page `p` with their envelopes. -/
def pageCommands (p : Nat) : List (Cmd × List Byte) :=
  (List.range wordsPerPage).map (wordCommand boardId image p) ++
    [(.wpage, commandEnvelope boardId .wpage p (be32 (crcUpdate Config.crcInit (pageStream image p))))]

/-- The commands of a whole run with their envelopes. -/
def runCommands : List (Cmd × List Byte) :=
  ((List.range (pageCount image)).map (pageCommands boardId image)).flatten ++
    [(.wcrc, commandEnvelope boardId .wcrc (pageCount image)
      (be32 (crcUpdate Config.crcInit (imageStream image))))]

theorem map_snd_pageCommands (p : Nat) :
    (pageCommands boardId image p).map Prod.snd = pageEnvelopes boardId image p := by
  rw [pageCommands, List.map_append, List.map_map]
  rfl

theorem map_snd_runCommands : (runCommands boardId image).map Prod.snd = runEnvelopes boardId image := by
  rw [runCommands, List.map_append, List.map_flatten, List.map_map]
  simp only [Function.comp_def, map_snd_pageCommands]
  rfl

/-- The code of the `k`-th command of a run while its pages last. -/
def pageCommandAt (k : Nat) : Cmd := if k % 257 = 256 then .wpage else .wbuf

theorem map_fst_pageCommands (p : Nat) :
    (pageCommands boardId image p).map Prod.fst = (List.range 257).map (fun k => pageCommandAt (257 * p + k)) := by
  have hword : ∀ w ∈ List.range 256, pageCommandAt (257 * p + w) = (wordCommand boardId image p w).1 := by
    intro w hw
    have hlt : w < 256 := List.mem_range.mp hw
    exact if_neg (by omega)
  have hlast : pageCommandAt (257 * p + 256) = .wpage := if_pos (by omega)
  rw [pageCommands, List.map_append, List.map_map, List.range_succ, List.map_append,
    List.map_congr_left hword, List.map_singleton, List.map_singleton, hlast]
  rfl

theorem map_fst_pages (n : Nat) :
    (((List.range n).map (pageCommands boardId image)).flatten).map Prod.fst =
      (List.range (257 * n)).map pageCommandAt := by
  induction n with
  | zero => rfl
  | succ n ih =>
    rw [List.range_succ, List.map_append, List.flatten_append, List.map_append, ih, List.map_singleton,
      List.flatten_singleton, map_fst_pageCommands, Nat.mul_succ, List.range_add, List.map_append, List.map_map]
    rfl

/-- The codes of the commands of a run are those `commandAt` names. -/
theorem map_fst_runCommands : (runCommands boardId image).map Prod.fst =
    (List.range (257 * pageCount image + 1)).map (commandAt (pageCount image)) := by
  have hpages : ∀ k ∈ List.range (257 * pageCount image), commandAt (pageCount image) k = pageCommandAt k := by
    intro k hk
    exact if_neg (List.mem_range.mp hk).ne
  rw [runCommands, List.map_append, map_fst_pages, List.range_succ, List.map_append, List.map_congr_left hpages,
    List.map_singleton, List.map_singleton, commandAt, if_pos rfl]

theorem runCommands_length : (runCommands boardId image).length = 257 * pageCount image + 1 := by
  have h := congrArg List.length (map_fst_runCommands boardId image)
  rwa [List.length_map, List.length_map, List.length_range] at h

/-- Acceptance of a command of the run is the statement's own notion of it. -/
theorem acceptedAt_runCommands (σ : Session) {k : Nat} (hk : k < 257 * pageCount image + 1) :
    AcceptedAt boardId (runCommands boardId image) σ.arrivals k ↔ σ.Accepts boardId (pageCount image) k := by
  have hlt : k < (runCommands boardId image).length := by rwa [runCommands_length]
  have hcmd : ((runCommands boardId image)[k]).1 = commandAt (pageCount image) k := by
    have h := congrArg (fun l => l[k]?) (map_fst_runCommands boardId image)
    simpa [hlt, hk] using h
  simp [AcceptedAt, Session.Accepts, hlt, hcmd]

end

/-! ### The Programmer sends them -/

section
variable (boardId : Byte) {image : List Byte}

/-- Writing the words from `w` on sends their `WBUF`s; unless one fails, both accumulators have been fed them. -/
theorem writeWords_runs {p : Nat} (hp : p < pageCount image) (n : Nat) : ∀ (w : Nat) (σ : Session), w + n ≤ 256 →
    ∃ o σ', writeWords boardId p w ((List.range' w n).map (imageWord image p)) σ = (o, σ') ∧
      σ.Runs boardId ((List.range' w n).map (wordCommand boardId image p)) o σ' ∧
      (o = none → ∀ a, σ'.block.crc a = crcUpdate (σ.block.crc a)
        (((List.range' w n).map (imageWord image p)).map toCrcOrder).flatten) := by
  induction n with
  | zero => exact fun w σ _ => ⟨none, σ, rfl, runs_nil σ, fun _ _ => rfl⟩
  | succ n ih =>
    intro w σ hw
    obtain ⟨o, σ', h1, h2, h3, h4, h5⟩ := writeWord_spec boardId p w (imageWord_length hp (w := w) (by omega)) σ
    have hrun : σ.Runs boardId [wordCommand boardId image p w] o σ' := runs_single h2 h3 h5
    rw [List.range'_succ]
    simp only [List.map_cons, writeWords, h1]
    cases o with
    | some why => exact ⟨some why, σ', rfl, hrun.append_aborted _, nofun⟩
    | none =>
      obtain ⟨o', σ'', h6, h7, h8⟩ := ih (w + 1) σ' (by omega)
      refine ⟨o', σ'', h6, hrun.append h7, fun ho a => ?_⟩
      rw [h8 ho, h4, List.flatten_cons, crcUpdate_append]

/-- Writing a page sends its commands; unless one fails, the image accumulator has been fed the page. -/
theorem writePage_runs {p : Nat} (hp : p < pageCount image) (σ : Session) :
    ∃ o σ', writePage boardId image p σ = (o, σ') ∧ σ.Runs boardId (pageCommands boardId image p) o σ' ∧
      (o = none → σ'.block.crc .image = crcUpdate (σ.block.crc .image) (pageStream image p)) := by
  let b : State := complete .none (σ.block.setCrc .page Config.crcInit)
  obtain ⟨o, σ1, h1, h2, h3⟩ := writeWords_runs boardId hp 256 0 { σ with block := b } (by omega)
  rw [← List.range_eq_range'] at h1 h2 h3
  have hstart : writeWords boardId p 0 (pageWords image p)
      { σ with block := (issue (encode (.crcInit .page)) σ.block).2 } = (o, σ1) := by
    rw [issue_crcInit]
    exact h1
  have hwords : σ.Runs boardId ((List.range wordsPerPage).map (wordCommand boardId image p)) o σ1 := h2
  cases o with
  | some why => exact ⟨some why, σ1, by simp only [writePage, hstart], hwords.append_aborted _, nofun⟩
  | none =>
    have hpage : σ1.block.crc .page = crcUpdate Config.crcInit (pageStream image p) := h3 rfl .page
    have himage : σ1.block.crc .image = crcUpdate (σ.block.crc .image) (pageStream image p) := h3 rfl .image
    obtain ⟨o2, σ2, h4, h5, h6, h7, h8⟩ :=
      commandDigest_spec boardId .wpage .page p (.writePageFailed p) σ1
    rw [hpage] at h5
    cases o2 with
    | some why =>
      exact ⟨some why, σ2, by simp only [writePage, hstart, h4], hwords.append (runs_single h5 h6 h8), nofun⟩
    | none =>
      exact ⟨none, { σ2 with notices := σ2.notices ++ [.pageDone p] }, by simp only [writePage, hstart, h4],
        hwords.append (runs_single h5 h6 h8), fun _ => (h7 .image).trans himage⟩

/-- The same for the pages of a list. -/
theorem writePages_runs (ps : List Nat) (hps : ∀ p ∈ ps, p < pageCount image) : ∀ σ : Session,
    ∃ o σ', writePages boardId image ps σ = (o, σ') ∧
      σ.Runs boardId ((ps.map (pageCommands boardId image)).flatten) o σ' ∧
      (o = none → σ'.block.crc .image =
        crcUpdate (σ.block.crc .image) ((ps.map (pageStream image)).flatten)) := by
  induction ps with
  | nil => exact fun σ => ⟨none, σ, rfl, runs_nil σ, fun _ => rfl⟩
  | cons p ps ih =>
    intro σ
    obtain ⟨o, σ', h1, h2, h3⟩ := writePage_runs boardId (hps p List.mem_cons_self) σ
    simp only [List.map_cons, List.flatten_cons, writePages, h1]
    cases o with
    | some why => exact ⟨some why, σ', rfl, h2.append_aborted _, nofun⟩
    | none =>
      obtain ⟨o', σ'', h4, h5, h6⟩ := ih (fun q hq => hps q (List.mem_cons_of_mem p hq)) σ'
      exact ⟨o', σ'', h4, h2.append h5, fun ho => by rw [h6 ho, h3 rfl, crcUpdate_append]⟩

/-- A run over at least one page, from a fresh image accumulator, sends the commands of the run and ends in Done or
in an abort. -/
theorem runProgrammer_runs (hP : pageCount image ≠ 0) (σ : Session) (hσ : σ.block.crc .image = Config.crcInit) :
    ∃ o : Option Abort, (runProgrammer boardId image σ).1 = o.elim .done .aborted ∧
      σ.Runs boardId (runCommands boardId image) o (runProgrammer boardId image σ).2 := by
  obtain ⟨o, σ1, h1, h2, h3⟩ := writePages_runs boardId (List.range (pageCount image))
    (fun p hp => List.mem_range.mp hp) σ
  cases o with
  | some why =>
    have hrun : runProgrammer boardId image σ = (.aborted why, σ1) := by
      simp only [runProgrammer, if_neg hP, h1]
    exact ⟨some why, by rw [hrun]; rfl, by rw [hrun]; exact h2.append_aborted _⟩
  | none =>
    obtain ⟨o2, σ2, h4, h5, h6, -, h8⟩ :=
      commandDigest_spec boardId .wcrc .image (pageCount image) .writeCrcFailed σ1
    rw [h3 rfl, hσ] at h5
    have hall := h2.append (runs_single h5 h6 h8)
    cases o2 with
    | some why =>
      have hrun : runProgrammer boardId image σ = (.aborted why, σ2) := by
        simp only [runProgrammer, if_neg hP, h1, h4]
      exact ⟨some why, by rw [hrun]; rfl, by rw [hrun]; exact hall⟩
    | none =>
      have hrun : runProgrammer boardId image σ =
          (.done, { σ2 with notices := σ2.notices ++ [.runDone] }) := by
        simp only [runProgrammer, if_neg hP, h1, h4]
      exact ⟨none, by rw [hrun]; rfl, by rw [hrun]; exact hall⟩

end

/-- Settles O55: an image without pages sends nothing; any other run sends its commands up to the first that
fails, and `Sends` says which were accepted. -/
theorem programmerSendsThePrescribedCommands : Obligations.ProgrammerSendsThePrescribedCommands := by
  intro boardId image σ hσ
  have hlen : (runEnvelopes boardId image).length = 257 * pageCount image + 1 := by
    rw [← map_snd_runCommands, List.length_map, runCommands_length]
  refine ⟨hlen, ?_⟩
  by_cases hP : pageCount image = 0
  · have hrun : runProgrammer boardId image σ = (.emptyImage, σ) := if_pos hP
    rw [hrun]
    exact ⟨0, Nat.zero_le _, (List.append_nil _).symm, nofun, nofun, nofun⟩
  obtain ⟨o, hend, sent, hsent, hsends⟩ := runProgrammer_runs boardId hP σ hσ
  have hle : sent.length ≤ 257 * pageCount image + 1 := runCommands_length boardId image ▸ hsends.sent_length_le
  have hacc : ∀ {k}, k < sent.length →
      (AcceptedAt boardId (runCommands boardId image) σ.arrivals k ↔ σ.Accepts boardId (pageCount image) k) :=
    fun hk => acceptedAt_runCommands boardId image σ (by omega)
  refine ⟨sent.length, hlen ▸ hle, ?_, fun k hk => (hacc (by omega)).mp (hsends.acceptedAt_of_lt hk), ?_, ?_⟩
  · rw [hsent, ← map_snd_runCommands, ← hsends.sent_eq_take]
  · intro why hwhy
    rw [hend] at hwhy
    cases o with
    | none => cases hwhy
    | some why' =>
      obtain ⟨hpos, hlast⟩ := hsends.not_acceptedAt_last
      exact ⟨hpos, fun h => hlast ((hacc (by omega)).mpr h)⟩
  · intro hdone
    rw [hend] at hdone
    cases o with
    | some why => cases hdone
    | none =>
      obtain ⟨hall, hk⟩ := hsends.all_accepted
      exact ⟨by rw [hall, runCommands_length, hlen], fun k hlt => (hacc hlt).mp (hk k hlt)⟩

end Sys2Proof.Machine
end
